-- ==== Sys2Proof/Word.lean ====
section
/-! DEFINITION. The value types of the block: bytes and byte strings of fixed length (00_scope.md R5, R13). -/

namespace Sys2Proof

/-- A byte, an unsigned integer 0..255 (00_scope.md R13). Bit 0 is the least significant bit (R14). -/
abbrev Byte := BitVec 8

/-- A byte string of fixed length `n`; index 0 is the first byte on the wire (00_scope.md R13). -/
abbrev Bytes (n : Nat) := Vector Byte n

/-- A device identifier: 6 bytes in wire order (00_scope.md R5). -/
abbrev Mac := Bytes 6

/-- A master or work counter: 4 bytes, low byte first (00_scope.md R5, 20_memory.md R51). -/
abbrev Counter := Bytes 4

/-- A master or work key: 16 bytes (00_scope.md R5). -/
abbrev Key := Bytes 16

/-- An IV, a keystream block or a full ciphertext block: 16 bytes (00_scope.md R5). -/
abbrev CipherBlock := Bytes 16

/-- A bus address, 0 to 31 (00_scope.md R5). -/
abbrev Addr := Fin 32

end Sys2Proof
end

