-- ==== Sys2Proof/Machine/Bytes.lean ====
section
/-! DEFINITION. Byte strings and byte order: the notation of 00_scope.md R13 to R15. -/

namespace Sys2Proof.Machine

/-- `b[i..j)`, the bytes `i` to `j - 1` of `b` (00_scope.md R13). -/
def slice (b : List Byte) (i j : Nat) : List Byte := (b.drop i).take (j - i)

/-- `b[i..i+n)` as a byte string of fixed length, for a slice that lies inside `b`. -/
def sliceBytes (b : List Byte) (i n : Nat) (h : i + n ≤ b.length) : Bytes n :=
  ⟨((b.drop i).take n).toArray, by simp; omega⟩

/-- `b` as a byte string of length `n`, if it has that length. -/
def toBytes (n : Nat) (b : List Byte) : Option (Bytes n) :=
  if h : b.length = n then some ⟨b.toArray, by simpa using h⟩ else none

/-- `a ⊕ b`, bytewise; on strings of different length, over the shorter (00_scope.md R14). -/
def xorBytes (a b : List Byte) : List Byte := List.zipWith (· ^^^ ·) a b

/-- `U16` of two bytes, the low one first (00_scope.md R15). -/
def u16 (lo hi : Byte) : Nat := lo.toNat + 256 * hi.toNat

/-- `U16(b[i..i+2))`; bytes beyond the end count as zero, and no caller reads them. -/
def u16At (b : List Byte) (i : Nat) : Nat := u16 (b.getD i 0) (b.getD (i + 1) 0)

/-- `LE16 n`, low byte first, for `n < 2^16` (00_scope.md R15; log entry 9). -/
def le16 (n : Nat) : List Byte := [BitVec.ofNat 8 n, BitVec.ofNat 8 (n / 256)]

/-- `U32` of a counter (00_scope.md R15). -/
def u32 (ctr : Counter) : Nat :=
  ctr[0].toNat + 2 ^ 8 * ctr[1].toNat + 2 ^ 16 * ctr[2].toNat + 2 ^ 24 * ctr[3].toNat

/-- `LE32 n`, low byte first, for `n < 2^32` (00_scope.md R15). -/
def le32 (n : Nat) : Bytes 4 :=
  #v[BitVec.ofNat 8 n, BitVec.ofNat 8 (n / 2 ^ 8), BitVec.ofNat 8 (n / 2 ^ 16), BitVec.ofNat 8 (n / 2 ^ 24)]

/-- `INC32 ctr` (00_scope.md R15): the counter read little-endian, plus one modulo 2^32, written back little-endian
(41_key_engine.md R145). -/
def inc32 (ctr : Counter) : Counter := le32 ((u32 ctr + 1) % 2 ^ 32)

end Sys2Proof.Machine
end

