-- ==== Sys2Proof/Syntax.lean ====
section
/-! DEFINITION. The commands of the block, one constructor for each row of spec/opcode_table.json
(30_encoding.md R71, R78), and the names of the ways a message can be illegal (R80). -/

namespace Sys2Proof

/-- A command with its operands as 30_encoding.md R73 to R79 assemble them. -/
inductive Instr where
  /-- CHUNK (40_reassembler.md R110). -/
  | chunk (data : List Byte)
  /-- STOP (42_session.md R190). -/
  | stop
  /-- REG_WRITE (41_key_engine.md R149). -/
  | regWrite (a : Addr) (mac : Mac)
  /-- SET_MCTR (41_key_engine.md R150). -/
  | setMctr (a : Addr) (ctr : Counter)
  /-- DECRYPT.PLAIN (41_key_engine.md R152). `kind` is the control byte's KIND bit, which this form carries and
  ignores (30_encoding.md R78, R81; log entry 11). -/
  | decryptPlain (a : Addr) (kind : Bool) (seq : Byte) (src dst : Mac) (ct : List Byte)
  /-- DECRYPT.MASTER (41_key_engine.md R153). -/
  | decryptMaster (a : Addr) (seq : Byte) (src dst : Mac) (ct : List Byte)
  /-- DECRYPT.WORK (41_key_engine.md R154). -/
  | decryptWork (a : Addr) (seq : Byte) (src dst : Mac) (ct : List Byte)
deriving DecidableEq, Repr

/-- Why a message is illegal: the nine conditions of 30_encoding.md R80, in its order. -/
inductive Illegal where
  /-- Condition 1: the empty message. -/
  | emptyMessage
  /-- Condition 2: byte 0 is no opcode of R71. -/
  | unknownOpcode
  /-- Condition 3: CHUNK shorter than 3 bytes, with L = 0, or of another length than 3 + L. -/
  | chunkLength
  /-- Condition 4: STOP of another length than 1. -/
  | stopLength
  /-- Condition 5: REG_WRITE of another length than 8. -/
  | regWriteLength
  /-- Condition 6: SET_MCTR of another length than 6. -/
  | setMctrLength
  /-- Condition 7: DECRYPT shorter than 18 bytes or of another length than 18 + L. -/
  | decryptLength
  /-- Condition 8: a reserved bit of the address byte is set. -/
  | addressReserved
  /-- Condition 9: a reserved bit of the control byte is set. -/
  | controlReserved
deriving DecidableEq, Repr

end Sys2Proof
end

