-- ==== Sys2Proof/WellFormed.lean ====
section
/-! DEFINITION. What a command must satisfy beyond its types for a message to carry it: the ranges of the length
fields (30_encoding.md R71, R73, R77). -/

namespace Sys2Proof

/-- The largest value of a 16-bit length field (30_encoding.md R71). -/
def maxLength : Nat := 65535

/-- A chunk has 1 to 65535 bytes (R73). -/
def chunkDataOk (data : List Byte) : Bool := decide (1 ≤ data.length) && decide (data.length ≤ maxLength)

/-- A ciphertext has 0 to 65535 bytes (R77). -/
def ciphertextOk (ct : List Byte) : Bool := decide (ct.length ≤ maxLength)

/-- The well-formed commands: those some legal message stands for. Addresses, MACs, counters and bytes are in range by
their types. -/
def Instr.wellFormed : Instr → Bool
  | .chunk data => chunkDataOk data
  | .stop => true
  | .regWrite _ _ => true
  | .setMctr _ _ => true
  | .decryptPlain _ _ _ _ _ ct => ciphertextOk ct
  | .decryptMaster _ _ _ _ ct => ciphertextOk ct
  | .decryptWork _ _ _ _ ct => ciphertextOk ct

end Sys2Proof
end

