-- ==== Sys2Proof/Decode.lean ====
section
/-! DEFINITION. The decoder of command messages (30_encoding.md R70 to R81, R93), total on any byte string and
rejecting by name; after it the encoder, written from the same tables. -/

namespace Sys2Proof

open Sys2Proof.Machine

/-- The length a message must have, found from its first bytes alone (30_encoding.md R93); none where the table gives
no length. -/
def expectedLength (m : List Byte) : Option Nat :=
  match m with
  | [] => none
  | op :: _ =>
    if op = 0x01 then (if 3 ≤ m.length then some (3 + u16At m 1) else none)
    else if op = 0x02 then some 1
    else if op = 0x10 then some 8
    else if op = 0x11 then some 6
    else if op = 0x20 then (if 18 ≤ m.length then some (18 + u16At m 16) else none)
    else none

/-- The address byte A (30_encoding.md R72): bits 7:5 must be zero, bits 4:0 are the address. -/
def decodeAddr (A : Byte) : Except Illegal Addr :=
  if A.extractLsb' 5 3 = 0 then .ok ⟨(A.extractLsb' 0 5).toNat, (A.extractLsb' 0 5).isLt⟩ else .error .addressReserved

/-- The control byte C (30_encoding.md R77): bits 7:2 must be zero, bit 0 is ENC, bit 1 is KIND. -/
def decodeControl (C : Byte) : Except Illegal (Bool × Bool) :=
  if C.extractLsb' 2 6 = 0 then .ok (C.getLsbD 0, C.getLsbD 1) else .error .controlReserved

/-- The DECRYPT form that ENC and KIND select (30_encoding.md R78, 41_key_engine.md R151). -/
def decryptForm (enc kind : Bool) (a : Addr) (seq : Byte) (src dst : Mac) (ct : List Byte) : Instr :=
  match enc, kind with
  | false, kind => .decryptPlain a kind seq src dst ct
  | true, false => .decryptMaster a seq src dst ct
  | true, true => .decryptWork a seq src dst ct

/-- CHUNK (30_encoding.md R73; condition 3 of R80). -/
def decodeChunk (m : List Byte) : Except Illegal Instr :=
  if 3 ≤ m.length ∧ u16At m 1 ≠ 0 ∧ m.length = 3 + u16At m 1 then .ok (.chunk (slice m 3 (3 + u16At m 1)))
  else .error .chunkLength

/-- STOP (30_encoding.md R74; condition 4 of R80). -/
def decodeStop (m : List Byte) : Except Illegal Instr :=
  if m.length = 1 then .ok .stop else .error .stopLength

/-- REG_WRITE (30_encoding.md R75; conditions 5 and 8 of R80). -/
def decodeRegWrite (m : List Byte) : Except Illegal Instr :=
  if h : m.length = 8 then (decodeAddr m[1]).map fun a => .regWrite a (sliceBytes m 2 6 (by omega))
  else .error .regWriteLength

/-- SET_MCTR (30_encoding.md R76; conditions 6 and 8 of R80). -/
def decodeSetMctr (m : List Byte) : Except Illegal Instr :=
  if h : m.length = 6 then (decodeAddr m[1]).map fun a => .setMctr a (sliceBytes m 2 4 (by omega))
  else .error .setMctrLength

/-- DECRYPT (30_encoding.md R77, R78; conditions 7, 8 and 9 of R80). -/
def decodeDecrypt (m : List Byte) : Except Illegal Instr :=
  if h : 18 ≤ m.length ∧ m.length = 18 + u16At m 16 then
    match decodeAddr m[1], decodeControl m[2] with
    | .error e, _ => .error e
    | .ok _, .error e => .error e
    | .ok a, .ok (enc, kind) =>
      .ok (decryptForm enc kind a m[3] (sliceBytes m 4 6 (by omega)) (sliceBytes m 10 6 (by omega))
        (slice m 18 (18 + u16At m 16)))
  else .error .decryptLength

/-- The decoder: byte 0 selects the format (30_encoding.md R70, R71), and a message that meets a condition of R80 is
rejected under that condition's name. -/
def decode (m : List Byte) : Except Illegal Instr :=
  match m with
  | [] => .error .emptyMessage
  | op :: _ =>
    if op = 0x01 then decodeChunk m
    else if op = 0x02 then decodeStop m
    else if op = 0x10 then decodeRegWrite m
    else if op = 0x11 then decodeSetMctr m
    else if op = 0x20 then decodeDecrypt m
    else .error .unknownOpcode

/-! ## The encoder -/

/-- The address byte of an address: reserved bits zero (30_encoding.md R72). -/
def addrByte (a : Addr) : Byte := BitVec.ofNat 8 a.val

/-- The control byte of ENC and KIND: reserved bits zero (30_encoding.md R77). -/
def controlByte (enc kind : Bool) : Byte := BitVec.ofNat 8 (enc.toNat + 2 * kind.toNat)

/-- The message of a DECRYPT of any form (30_encoding.md R71, R77). -/
def encodeDecrypt (enc kind : Bool) (a : Addr) (seq : Byte) (src dst : Mac) (ct : List Byte) : List Byte :=
  [0x20, addrByte a, controlByte enc kind, seq] ++ src.toList ++ dst.toList ++ le16 ct.length ++ ct

/-- The message of a command (30_encoding.md R71 to R78). -/
def encode : Instr → List Byte
  | .chunk data => [0x01] ++ le16 data.length ++ data
  | .stop => [0x02]
  | .regWrite a mac => [0x10, addrByte a] ++ mac.toList
  | .setMctr a ctr => [0x11, addrByte a] ++ ctr.toList
  | .decryptPlain a kind seq src dst ct => encodeDecrypt false kind a seq src dst ct
  | .decryptMaster a seq src dst ct => encodeDecrypt true false a seq src dst ct
  | .decryptWork a seq src dst ct => encodeDecrypt true true a seq src dst ct

/-! ## Messages from the opcode table's words -/

/-- Byte `k` of a word numbered as spec/opcode_table.json numbers it: bits 8k+7 down to 8k. -/
def wordByte (w k : Nat) : Byte := BitVec.ofNat 8 (w >>> (8 * k))

/-- The message whose bits are the `nbits` low bits of `w` and zeros above: as many bytes as the header's length rule asks
for (30_encoding.md R93), and at least the bytes that `nbits` covers (log entry 10). -/
def messageOfWord (nbits w : Nat) : List Byte :=
  let v := w % 2 ^ nbits
  let header := (List.range 18).map (wordByte v)
  (List.range (max ((nbits + 7) / 8) ((expectedLength header).getD 0))).map (wordByte v)

/-- What the decoder reads from the message of a table word. -/
def decodeTableWord (nbits w : Nat) : Option Instr := (decode (messageOfWord nbits w)).toOption

end Sys2Proof
end

