-- ==== Sys2Proof/Machine/Cipher.lean ====
section
/-! DEFINITION. The chained cipher (41_key_engine.md R141, R142, R143), to the letter of R141. -/

namespace Sys2Proof.Machine

/-- The number of blocks, `⌈n / 16⌉` (41_key_engine.md R141). -/
def blockCount (n : Nat) : Nat := (n + 15) / 16

/-- `C_i = ct[16·i .. min(16·i + 16, n))` (41_key_engine.md R141). -/
def cipherBlock (ct : List Byte) (i : Nat) : List Byte := slice ct (16 * i) (min (16 * i + 16) ct.length)

/-- `K_i` (41_key_engine.md R141): the cipher of the IV for block 0, of the previous ciphertext block after it. E is applied to
full blocks only, so a block after a short one would have no keystream; R141 has none, only the last block may be short. -/
def keystream (E : Key → CipherBlock → CipherBlock) (k : Key) (iv : CipherBlock) (ct : List Byte) :
    Nat → Option CipherBlock
  | 0 => some (E k iv)
  | i + 1 => (toBytes 16 (cipherBlock ct i)).map (E k)

/-- `P_i = C_i ⊕ trunc(K_i, |C_i|)` (41_key_engine.md R141, R142). -/
def plainBlock (E : Key → CipherBlock → CipherBlock) (k : Key) (iv : CipherBlock) (ct : List Byte) (i : Nat) :
    List Byte :=
  match keystream E k iv ct i with
  | some K => xorBytes (cipherBlock ct i) (K.toList.take (cipherBlock ct i).length)
  | none => []

/-- `CHAIN(k, iv, ct) = P_0 ++ … ++ P_(m-1)` (41_key_engine.md R141). -/
def chain (E : Key → CipherBlock → CipherBlock) (k : Key) (iv : CipherBlock) (ct : List Byte) : List Byte :=
  (List.range (blockCount ct.length)).flatMap (plainBlock E k iv ct)

end Sys2Proof.Machine
end

