-- ==== Sys2Proof/Config.lean ====
section
/-! DEFINITION. CFG, the implementation parameters (00_scope.md R6 to R12, 10_state.md R31), and the free values
of the model. Every legal value of CFG is covered: the legality bounds are in the field types, and `Config.cfg` is
one opaque constant that no proof can look into. -/

namespace Sys2Proof

/-- `CFG.TAIL_MODE` (00_scope.md R10): how a final ciphertext block shorter than 16 bytes is treated. -/
inductive TailMode where
  | xorPrefix
  | refuse
deriving DecidableEq, Repr, Inhabited

/-- `CFG.RESYNC_HIGH` (00_scope.md R11): where the three high bytes come from when the low byte is forced. -/
inductive ResyncHigh where
  | incremented
  | original
deriving DecidableEq, Repr, Inhabited

/-- The configuration record CFG (10_state.md R31 and its table): fixed before reset is released, changed by nothing
the block does. -/
structure Config where
  /-- `CFG.E` (R6): the forward direction of the raw block cipher. -/
  encrypt : Key → CipherBlock → CipherBlock
  /-- `CFG.MASTER_KEY` (R7). -/
  masterKey : Key
  /-- `CFG.SEARCH_OFFSET` (R8): legal values 1 and above (log entry 16). -/
  searchOffset : ℕ+
  /-- `CFG.RETAIN_ON_STOP` (R9). -/
  retainOnStop : Bool
  /-- `CFG.TAIL_MODE` (R10). -/
  tailMode : TailMode
  /-- `CFG.RESYNC_HIGH` (R11). -/
  resyncHigh : ResyncHigh
  /-- `CFG.RAWBUF_CAP` (R12, table of 10_state.md R31): none, or some n with n at least 1. -/
  rawbufCap : Option ℕ+
deriving Inhabited

namespace Config

/-- The record with every parameter that has a default at its default (00_scope.md R8, R10, R11, R12), the three
OPEN ones given. -/
def withDefaults (encrypt : Key → CipherBlock → CipherBlock) (masterKey : Key) (retainOnStop : Bool) : Config where
  encrypt := encrypt
  masterKey := masterKey
  searchOffset := 2
  retainOnStop := retainOnStop
  tailMode := .xorPrefix
  resyncHigh := .incremented
  rawbufCap := none

/-- CFG of this machine: some legal record, nothing more is known of it (log entry 1; DESIGN CHOICE, safe). -/
opaque cfg : Config

/-- The free draw of an emit (20_memory.md R57: "a draw accept that no law constrains"): draw number `n` is true when the
host takes the record (log entry 2). -/
opaque accept : Nat → Bool

/-- The free length field of a FRAME record whose frame has `n ≥ 2^32` bytes, for which the spec states no LE32
(00_scope.md R15, 30_encoding.md R82; log entry 8). -/
opaque longFrameLength : Nat → Bytes 4

end Config

end Sys2Proof
end

