-- ==== Sys2Proof/Machine/State.lean ====
section
/-! DEFINITION. The state as plain data: the record S of 10_state.md R20, the two channels and the diagnostic line of
20_memory.md R56 and R57, and the model's own draw counter; the reasons a step can stop; and what a command's rule
answers before its records are delivered. -/

namespace Sys2Proof.Machine

/-- A table with one optional entry per bus address (10_state.md R24, R26); `none` is the source's "unknown"
(00_scope.md R16). -/
abbrev Table (α : Type) := Vector (Option α) 32

/-- A direction: IN is encoded 0, OUT is encoded 1 (10_state.md R30, log entry 15). -/
inductive Dir where
  | inn
  | out
deriving DecidableEq, Repr

/-- One value for each direction (10_state.md R27, R28). -/
structure PerDir (α : Type) where
  inn : α
  out : α
deriving DecidableEq, Repr

/-- The outcome codes of 30_encoding.md R84. `malformed` and `lostAck` are the parser's; the block never emits them. -/
inductive OutcomeCode where
  | decoded
  | notEncrypted
  | missingMasterCounter
  | missingWorkKey
  | malformed
  | lostAck
  | illegalCommand
deriving DecidableEq, Repr

/-- A record on REC_OUT: FRAME (30_encoding.md R82) with the unescaped frame, or RESULT (R83) with its outcome code, its
status byte ST and the plaintext. Its bytes on the wire are `recordBytes` (log entry 12). -/
inductive Record where
  | frame (f : List Byte)
  | result (oc : OutcomeCode) (st : Byte) (p : List Byte)
deriving DecidableEq, Repr

/-- The block's state: the record S of 10_state.md R20. -/
structure Block where
  /-- RB, the RawBuffer (R22). -/
  rb : List Byte
  /-- FAULT, the sticky fault bit (R23). -/
  fault : Bool
  /-- REG, the address registry (R24). -/
  reg : Table Mac
  /-- MCTR, the master counters, one per address (R26). -/
  mctr : Table Counter
  /-- WKEY, the work keys, one per address and direction (R27). -/
  wkey : PerDir (Table Key)
  /-- WCTR, the work counters, one per address and direction (R28). -/
  wctr : PerDir (Table Counter)
deriving DecidableEq, Repr

/-- The machine: the block, and the channels through which the host meets it. -/
structure State where
  /-- S (10_state.md R20). -/
  block : Block
  /-- CMD_IN: the messages not yet taken, the next one first (20_memory.md R56). -/
  cmdIn : List (List Byte)
  /-- REC_OUT: the records the host accepted and has not taken, the oldest first (20_memory.md R57). -/
  recOut : List Record
  /-- The diagnostic line: the records dropped, as DROP indications, the oldest first (20_memory.md R57). -/
  dropLine : List Record
  /-- The model's own field: how many emit draws have been taken (log entry 2). -/
  draws : Nat
deriving DecidableEq, Repr

/-- A table with every entry `none`. -/
def emptyTable (α : Type) : Table α := Vector.replicate 32 none

/-- S after reset (10_state.md R34). -/
def Block.reset : Block where
  rb := []
  fault := false
  reg := emptyTable Mac
  mctr := emptyTable Counter
  wkey := ⟨emptyTable Key, emptyTable Key⟩
  wctr := ⟨emptyTable Counter, emptyTable Counter⟩

/-- The machine right after reset: S as 10_state.md R34 gives it, nothing in the channels (log entry 3), no draw
taken (log entry 2). -/
def State.reset : State where
  block := Block.reset
  cmdIn := []
  recOut := []
  dropLine := []
  draws := 0

/-- Why the machine stops with a fault. -/
inductive Fault where
  /-- Raised by CHUNK when RawBuffer would grow past CFG.RAWBUF_CAP (60_exceptions.md R203: "A model records this as a
  fault"). It carries the state the block is left in: FAULT set, nothing else changed. Safe. -/
  | rawBufOverflow (faulted : State)
  /-- Raised by the step, not by a command, while FAULT is set: the block takes no step until reset (10_state.md R23,
  60_exceptions.md R203, log entry 5). Safe. -/
  | blockFaulted
  /-- Raised by DECRYPT.WORK in a state that holds a work key and no work counter for the same address and direction, which
  10_state.md R29 excludes (log entry 6). Safe. -/
  | workCounterMissing
deriving DecidableEq, Repr

/-- Why a command has no meaning. -/
inductive Refusal where
  /-- Raised by `exec` for a command that has no meaning in the model; no arm does. Safe. -/
  | notModelled (mnemonic : String)
  /-- Raised by DECRYPT.MASTER and DECRYPT.WORK when CFG.TAIL_MODE is refuse and the ciphertext length is no multiple of 16,
  past the key checks (41_key_engine.md R142, 60_exceptions.md R204, log entry 7). Safe. -/
  | partialTail
deriving DecidableEq, Repr

/-- What a command's rule answers, before its records are delivered to the host. -/
inductive Effect where
  /-- The command completed: the block's new state and the records it emits, in order. -/
  | done (b : Block) (records : List Record)
  /-- The capacity fault: the block with FAULT set (60_exceptions.md R203). -/
  | overflow (b : Block)
  /-- The model refusal (60_exceptions.md R204). -/
  | refusedTail
  /-- A work key without a work counter (log entry 6). -/
  | counterMissing
deriving DecidableEq, Repr

end Sys2Proof.Machine
end

