-- ==== Sys2Proof/Machine/Flags.lean ====
section
/-! DEFINITION. The outcome codes and the status byte ST of a RESULT record (30_encoding.md R84, R85). -/

namespace Sys2Proof.Machine

/-- The numeric outcome code OC (30_encoding.md R84). -/
def outcomeByte : OutcomeCode → Byte
  | .decoded => 0x00
  | .notEncrypted => 0x01
  | .missingMasterCounter => 0x02
  | .missingWorkKey => 0x03
  | .malformed => 0x04
  | .lostAck => 0x05
  | .illegalCommand => 0x0E

/-- ST bit 0, CTR_INC: the counter was replaced by its increment, which matched (30_encoding.md R85). -/
def stCtrInc : Byte := 0x01

/-- ST bit 1, CTR_FORCED: the counter's low byte was forced (30_encoding.md R85). -/
def stCtrForced : Byte := 0x02

/-- ST bit 2, KEY_INSTALLED (30_encoding.md R85). -/
def stKeyInstalled : Byte := 0x04

/-- ST bit 4, NO_DIR: the direction test found no direction (30_encoding.md R85). -/
def stNoDir : Byte := 0x10

/-- ST bit 5, SHORT_PT: a master-path plaintext shorter than 20 bytes (30_encoding.md R85). -/
def stShortPt : Byte := 0x20

/-- ST bit 3, DIR, as the direction's encoding: 0 for IN, 1 for OUT (10_state.md R30, 30_encoding.md R85). -/
def stDir : Dir → Byte
  | .inn => 0x00
  | .out => 0x08

end Sys2Proof.Machine
end

