-- ==== Sys2Proof/Machine/Counter.lean ====
section
/-! DEFINITION. Counter resynchronisation (41_key_engine.md R144). -/

namespace Sys2Proof.Machine

/-- Whose high bytes a forced counter keeps (00_scope.md R11, 41_key_engine.md R144). -/
def forcedBase (high : ResyncHigh) (ctr : Counter) : Counter :=
  match high with
  | .incremented => inc32 ctr
  | .original => ctr

/-- RESYNC (41_key_engine.md R144): in step; or one behind; or the low byte forced over the high bytes that
CFG.RESYNC_HIGH names. -/
def resync (high : ResyncHigh) (ctr : Counter) (seq : Byte) : Counter × Byte :=
  if ctr[0] = seq then (ctr, 0x00)
  else if (inc32 ctr)[0] = seq then (inc32 ctr, stCtrInc)
  else (#v[seq, (forcedBase high ctr)[1], (forcedBase high ctr)[2], (forcedBase high ctr)[3]], stCtrForced)

end Sys2Proof.Machine
end

