-- ==== Sys2Proof/Machine/Ops.lean ====
section
/-! DEFINITION. The named operations: reading and writing the tables (00_scope.md R16), emitting records
(20_memory.md R57), raising an outcome (00_scope.md R17), and what the host does between commands. -/

namespace Sys2Proof.Machine

/-! ## The tables -/

/-- `T[a]` (00_scope.md R16). -/
def tableGet {α : Type} (t : Table α) (a : Addr) : Option α := t[a]

/-- `T[a] <- some v` (00_scope.md R16). -/
def tableSet {α : Type} (t : Table α) (a : Addr) (v : α) : Table α := t.set a (some v)

/-- The value kept for direction `d`. -/
def dirGet {α : Type} (p : PerDir α) (d : Dir) : α :=
  match d with
  | .inn => p.inn
  | .out => p.out

/-- Replace the value kept for direction `d`. -/
def dirSet {α : Type} (p : PerDir α) (d : Dir) (v : α) : PerDir α :=
  match d with
  | .inn => { p with inn := v }
  | .out => { p with out := v }

/-- `REG[a]` (10_state.md R24). -/
def readReg (b : Block) (a : Addr) : Option Mac := tableGet b.reg a

/-- `MCTR[a]` (10_state.md R26). -/
def readMctr (b : Block) (a : Addr) : Option Counter := tableGet b.mctr a

/-- `WKEY[a][d]` (10_state.md R27). -/
def readWkey (b : Block) (a : Addr) (d : Dir) : Option Key := tableGet (dirGet b.wkey d) a

/-- `WCTR[a][d]` (10_state.md R28). -/
def readWctr (b : Block) (a : Addr) (d : Dir) : Option Counter := tableGet (dirGet b.wctr d) a

/-- `REG[a] <- some mac`. -/
def writeReg (b : Block) (a : Addr) (mac : Mac) : Block := { b with reg := tableSet b.reg a mac }

/-- `MCTR[a] <- some ctr`. -/
def writeMctr (b : Block) (a : Addr) (ctr : Counter) : Block := { b with mctr := tableSet b.mctr a ctr }

/-- `WKEY[a][d] <- some key`. -/
def writeWkey (b : Block) (a : Addr) (d : Dir) (key : Key) : Block :=
  { b with wkey := dirSet b.wkey d (tableSet (dirGet b.wkey d) a key) }

/-- `WCTR[a][d] <- some ctr`. -/
def writeWctr (b : Block) (a : Addr) (d : Dir) (ctr : Counter) : Block :=
  { b with wctr := dirSet b.wctr d (tableSet (dirGet b.wctr d) a ctr) }

/-- `RB <- bytes`. -/
def setRb (b : Block) (bytes : List Byte) : Block := { b with rb := bytes }

/-- Every entry of every table `<- none` (42_session.md R190). -/
def clearTables (b : Block) : Block :=
  { b with
    reg := emptyTable Mac
    mctr := emptyTable Counter
    wkey := ⟨emptyTable Key, emptyTable Key⟩
    wctr := ⟨emptyTable Counter, emptyTable Counter⟩ }

/-! ## Emitting and raising -/

/-- `emit r` (00_scope.md R17, 20_memory.md R57): the next draw decides whether `r` goes to REC_OUT or is dropped with a DROP
indication; the block's state is untouched either way. -/
def emit (r : Record) (s : State) : State :=
  if Config.accept s.draws then { s with recOut := s.recOut ++ [r], draws := s.draws + 1 }
  else { s with dropLine := s.dropLine ++ [r], draws := s.draws + 1 }

/-- Emit records in order (20_memory.md R61). -/
def emitAll : List Record → State → State
  | [], s => s
  | r :: rs, s => emitAll rs (emit r s)

/-- `raise oc(ST = st)` (00_scope.md R17): the shared operation of every exceptional outcome. It ends the command with a RESULT
record that carries no plaintext, and the block's state is as the command found it (60_exceptions.md R208). Nothing is
saved and there is nothing to return from (60_exceptions.md R200). -/
def raise (oc : OutcomeCode) (st : Byte) (b : Block) : Effect := .done b [.result oc st []]

/-- Deliver a rule's answer: the block's new state is stored and the records are emitted in order; a capacity fault stops the
machine with FAULT set (60_exceptions.md R203), a refusal without a state (R204). -/
def commit (e : Effect) (s : State) : Host.Outcome State Fault Refusal :=
  match e with
  | .done b rs => .next (emitAll rs { s with block := b })
  | .overflow b => .fault (.rawBufOverflow { s with block := b })
  | .refusedTail => .refused .partialTail
  | .counterMissing => .fault .workCounterMissing

/-- ILLEGAL_COMMAND (60_exceptions.md R202): what taking an illegal message does. -/
def illegalCommand (s : State) : Host.Outcome State Fault Refusal := commit (raise .illegalCommand 0x00 s.block) s

/-! ## What the host does between commands (20_memory.md R56, 70_reset_and_hazards.md R230) -/

/-- The host pushes a message at the back of CMD_IN. -/
def hostSend (m : List Byte) (s : State) : State := { s with cmdIn := s.cmdIn ++ [m] }

/-- The host takes the record at the front of REC_OUT, if there is one. -/
def hostReceive (s : State) : Option (Record × State) :=
  match s.recOut with
  | [] => none
  | r :: rs => some (r, { s with recOut := rs })

/-- Reset (70_reset_and_hazards.md R230): every element of S at its reset value; the channels, which the host owns, are not
touched (log entry 13). -/
def resetEvent (s : State) : State := { s with block := Block.reset }

end Sys2Proof.Machine
end

