-- ==== Sys2Proof/Machine/Operands.lean ====
section
/-! DEFINITION. What a DECRYPT command derives from its operands before it decrypts: the direction (41_key_engine.md R147)
and the IV (R146). -/

namespace Sys2Proof.Machine

/-- DIRTEST (41_key_engine.md R147): the source MAC is tested first. -/
def dirTest (b : Block) (a : Addr) (src dst : Mac) : Option Dir × Byte :=
  match readReg b a with
  | none => (none, stNoDir)
  | some mac =>
    if src = mac then (some .out, stDir .out)
    else if dst = mac then (some .inn, stDir .inn)
    else (none, stNoDir)

/-- `IV(src, dst, ctr) = src ++ dst ++ ctr` (41_key_engine.md R146, 30_encoding.md R88). -/
def ivOf (src dst : Mac) (ctr : Counter) : CipherBlock :=
  ⟨(src.toList ++ dst.toList ++ ctr.toList).toArray, by simp⟩

end Sys2Proof.Machine
end

