-- ==== Sys2Proof/Machine/KeyEngine.lean ====
section
/-! DEFINITION. The Key & Decryption Engine: registry and counter loading, key installation and the three DECRYPT forms
(41_key_engine.md). -/

namespace Sys2Proof.Machine

/-! ## Registry and counter loading -/

/-- REG_WRITE (41_key_engine.md R149): `REG[a] <- some mac`. -/
def regWriteRule (a : Addr) (mac : Mac) (b : Block) : Effect := .done (writeReg b a mac) []

/-- REG_WRITE (41_key_engine.md R149). -/
def execRegWrite (a : Addr) (mac : Mac) (s : State) : Host.Outcome State Fault Refusal :=
  commit (regWriteRule a mac s.block) s

/-- SET_MCTR (41_key_engine.md R150): `MCTR[a] <- some ctr`. -/
def setMctrRule (a : Addr) (ctr : Counter) (b : Block) : Effect := .done (writeMctr b a ctr) []

/-- SET_MCTR (41_key_engine.md R150). -/
def execSetMctr (a : Addr) (ctr : Counter) (s : State) : Host.Outcome State Fault Refusal :=
  commit (setMctrRule a ctr s.block) s

/-! ## Key installation -/

/-- INSTALL (41_key_engine.md R148, layout 30_encoding.md R89): a plaintext of at least 20 bytes gives its last 16 as the work
key and the 4 before them as the work counter of the direction, if one was found (log entry 14). -/
def install (b : Block) (a : Addr) (dir : Option Dir) (p : List Byte) : Block × Byte :=
  if h : 20 ≤ p.length then
    match dir with
    | some d =>
      (writeWctr (writeWkey b a d (sliceBytes p (p.length - 16) 16 (by omega))) a d
        (sliceBytes p (p.length - 20) 4 (by omega)), stKeyInstalled)
    | none => (b, 0x00)
  else (b, stShortPt)

/-! ## DECRYPT -/

/-- DECRYPT.PLAIN (41_key_engine.md R152): every operand but ENC is ignored. -/
def decryptPlainRule (b : Block) : Effect := raise .notEncrypted 0x00 b

/-- DECRYPT.PLAIN (41_key_engine.md R152). -/
def execDecryptPlain (s : State) : Host.Outcome State Fault Refusal := commit (decryptPlainRule s.block) s

/-- Whether CFG.TAIL_MODE refuses a ciphertext of this length (41_key_engine.md R142, 60_exceptions.md R204). -/
def tailRefused (mode : TailMode) (n : Nat) : Bool := decide (mode = .refuse) && decide (n % 16 ≠ 0)

/-- DECRYPT.MASTER (41_key_engine.md R153), for any CFG. The key is CFG.MASTER_KEY (R140); the resynchronised counter is stored
and not advanced. -/
def decryptMasterRule (c : Config) (a : Addr) (seq : Byte) (src dst : Mac) (ct : List Byte) (b : Block) : Effect :=
  let d := dirTest b a src dst
  match readMctr b a with
  | none => raise .missingMasterCounter d.2 b
  | some ctr =>
    let r := resync c.resyncHigh ctr seq
    if tailRefused c.tailMode ct.length then .refusedTail
    else
      let p := chain c.encrypt c.masterKey (ivOf src dst r.1) ct
      let k := install (writeMctr b a r.1) a d.1 p
      .done k.1 [.result .decoded (d.2 ||| r.2 ||| k.2) p]

/-- DECRYPT.MASTER (41_key_engine.md R153). -/
def execDecryptMaster (a : Addr) (seq : Byte) (src dst : Mac) (ct : List Byte) (s : State) :
    Host.Outcome State Fault Refusal :=
  commit (decryptMasterRule Config.cfg a seq src dst ct s.block) s

/-- DECRYPT.WORK (41_key_engine.md R154), for any CFG. The key is the direction's work key (R140); the counter stored is the
resynchronised one plus one. -/
def decryptWorkRule (c : Config) (a : Addr) (seq : Byte) (src dst : Mac) (ct : List Byte) (b : Block) : Effect :=
  let d := dirTest b a src dst
  match d.1 with
  | none => raise .missingWorkKey d.2 b
  | some dir =>
    match readWkey b a dir with
    | none => raise .missingWorkKey d.2 b
    | some key =>
      match readWctr b a dir with
      | none => .counterMissing
      | some ctr =>
        let r := resync c.resyncHigh ctr seq
        if tailRefused c.tailMode ct.length then .refusedTail
        else
          let p := chain c.encrypt key (ivOf src dst r.1) ct
          .done (writeWctr b a dir (inc32 r.1)) [.result .decoded (d.2 ||| r.2) p]

/-- DECRYPT.WORK (41_key_engine.md R154). -/
def execDecryptWork (a : Addr) (seq : Byte) (src dst : Mac) (ct : List Byte) (s : State) :
    Host.Outcome State Fault Refusal :=
  commit (decryptWorkRule Config.cfg a seq src dst ct s.block) s

end Sys2Proof.Machine
end

