-- ==== Sys2Proof/Machine/Reassembler.lean ====
section
/-! DEFINITION. The Frame Reassembler: marker search, carving, escape removal and CHUNK (40_reassembler.md). -/

namespace Sys2Proof.Machine

/-- The frame marker 0xFF (30_encoding.md R86). -/
def marker : Byte := 0xFF

/-- The least index at or above `off` at which `rb` holds the marker, if there is one (40_reassembler.md R111). -/
def findMarker (off : Nat) (rb : List Byte) : Option Nat := ((rb.drop off).findIdx? (· == marker)).map (· + off)

/-- CARVE (40_reassembler.md R111), on RB alone: the raw frame before the marker and what stays in RB, the marker first. -/
def carve (off : Nat) (rb : List Byte) : Option (List Byte × List Byte) :=
  (findMarker off rb).map fun j => (rb.take j, rb.drop j)

/-- CARVE run until it finds nothing, at most `fuel` times: the raw frames in stream order and what stays in RB. -/
def carveLoop (off : Nat) : Nat → List Byte → List (List Byte) × List Byte
  | 0, rb => ([], rb)
  | fuel + 1, rb =>
    match carve off rb with
    | none => ([], rb)
    | some (f, rest) => (f :: (carveLoop off fuel rest).1, (carveLoop off fuel rest).2)

/-- CARVE_LOOP (40_reassembler.md R113). Each carve shortens RB by at least one byte, so its length bounds the rounds. -/
def carveAll (off : Nat) (rb : List Byte) : List (List Byte) × List Byte := carveLoop off rb.length rb

/-- UNESCAPE (40_reassembler.md R112, 30_encoding.md R87): one pass from the left; an FE that starts no escape sequence
stands for itself. -/
def unescape : List Byte → List Byte
  | [] => []
  | [x] => [x]
  | x :: y :: t =>
    if x = 0xFE ∧ y = 0x01 then 0xFF :: unescape t
    else if x = 0xFE ∧ y = 0x02 then 0xFE :: unescape t
    else x :: unescape (y :: t)

/-- Whether a RawBuffer of `n` bytes would exceed CFG.RAWBUF_CAP (00_scope.md R12). -/
def overCap (cap : Option ℕ+) (n : Nat) : Bool :=
  match cap with
  | none => false
  | some c => decide ((c : Nat) < n)

/-- CHUNK (40_reassembler.md R110), for any CFG: the capacity check first; then append, carve every complete frame, and emit
each unescaped. -/
def chunkRule (c : Config) (data : List Byte) (b : Block) : Effect :=
  if overCap c.rawbufCap (b.rb.length + data.length) then .overflow { b with fault := true }
  else
    let r := carveAll c.searchOffset (b.rb ++ data)
    .done (setRb b r.2) (r.1.map fun f => .frame (unescape f))

/-- CHUNK (40_reassembler.md R110). -/
def execChunk (data : List Byte) (s : State) : Host.Outcome State Fault Refusal :=
  commit (chunkRule Config.cfg data s.block) s

end Sys2Proof.Machine
end

