-- ==== Sys2Proof/Machine/Session.lean ====
section
/-! DEFINITION. Session control: STOP (42_session.md). -/

namespace Sys2Proof.Machine

/-- STOP (42_session.md R190), for any CFG: RB is emptied with no output, and unless CFG.RETAIN_ON_STOP every table is
cleared. FAULT is not touched. -/
def stopRule (c : Config) (b : Block) : Effect :=
  .done (if c.retainOnStop then setRb b [] else clearTables (setRb b [])) []

/-- STOP (42_session.md R190). -/
def execStop (s : State) : Host.Outcome State Fault Refusal := commit (stopRule Config.cfg s.block) s

end Sys2Proof.Machine
end

