-- ==== Sys2Proof/Machine/Dispatch.lean ====
section
/-! DEFINITION. One arm per command, each a direct call of that command's meaning. -/

namespace Sys2Proof.Machine

def exec (i : Instr) (s : State) : Host.Outcome State Fault Refusal :=
  match i with
  | .chunk data => Sys2Proof.Machine.execChunk data s
  | .stop => Sys2Proof.Machine.execStop s
  | .regWrite a mac => Sys2Proof.Machine.execRegWrite a mac s
  | .setMctr a ctr => Sys2Proof.Machine.execSetMctr a ctr s
  | .decryptPlain _ _ _ _ _ _ => Sys2Proof.Machine.execDecryptPlain s
  | .decryptMaster a seq src dst ct => Sys2Proof.Machine.execDecryptMaster a seq src dst ct s
  | .decryptWork a seq src dst ct => Sys2Proof.Machine.execDecryptWork a seq src dst ct s

end Sys2Proof.Machine
end

