-- ==== Sys2Proof/Machine/Controller.lean ====
section
/-! DEFINITION. The sequential controller: taking one message from CMD_IN (20_memory.md R56, R58). -/

namespace Sys2Proof.Machine

/-- Take a message: an illegal one raises ILLEGAL_COMMAND (60_exceptions.md R202), a legal one runs its command. -/
def takeMessage (m : List Byte) (s : State) : Host.Outcome State Fault Refusal :=
  match decode m with
  | .error _ => illegalCommand s
  | .ok i => exec i s

/-- One step of the block. While FAULT is set it takes none (60_exceptions.md R203); with CMD_IN empty it waits
(70_reset_and_hazards.md R238, log entry 4); else it takes the front message, which leaves CMD_IN, and runs it to
completion (20_memory.md R58). -/
def controllerStep (s : State) : Host.Outcome State Fault Refusal :=
  if s.block.fault then .fault .blockFaulted
  else
    match s.cmdIn with
    | [] => .next s
    | m :: rest => takeMessage m { s with cmdIn := rest }

/-- Place a message where the next step takes it: at the front of CMD_IN, with FAULT clear (log entry 10). -/
def placeMessage (m : List Byte) (s : State) : State :=
  { s with block := { s.block with fault := false }, cmdIn := m :: s.cmdIn }

end Sys2Proof.Machine
end

