-- ==== Sys2Proof/Machine/Step.lean ====
section
/-! DEFINITION. The step of the machine, and the placing of a table word where the step fetches. -/

namespace Sys2Proof.Machine

/-- One step: the controller's (20_memory.md R58). -/
def step (s : State) : Host.Outcome State Fault Refusal := controllerStep s

/-- `s` with the message of the table word at the front of CMD_IN, so that the next step takes it (log entry 10). -/
def State.withFetchWord (s : State) (nbits w : Nat) : State := placeMessage (messageOfWord nbits w) s

end Sys2Proof.Machine
end

