-- ==== Sys2Proof/Machine/Assembler.lean ====
section
/-! DEFINITION. The assembler of 30_encoding.md R91 and the pseudo-instruction `feed` of R92. Nothing in the block runs it: it
turns the textual form of commands into the messages a host sends (log entry 17). -/

namespace Sys2Proof.Machine

/-- A line of assembly, its operands read but not yet checked (30_encoding.md R91, R92). -/
inductive AsmLine where
  | chunk (bytes : List Byte)
  | stop
  | regw (a : Nat) (mac : Mac)
  | setmc (a : Nat) (ctr : Counter)
  | decPlain (a : Nat) (seq : Byte) (src dst : Mac) (ct : List Byte)
  | decMaster (a : Nat) (seq : Byte) (src dst : Mac) (ct : List Byte)
  | decWork (a : Nat) (seq : Byte) (src dst : Mac) (ct : List Byte)
  | feed (bytes : List Byte)
deriving DecidableEq, Repr

/-- `feed` (30_encoding.md R92): chunks of the consecutive pieces of `size` bytes, the last one shorter if it must be; at most
`fuel` of them. -/
def feedPieces (size : Nat) : Nat → List Byte → List Instr
  | 0, _ => []
  | fuel + 1, bytes =>
    match bytes with
    | [] => []
    | x :: t => .chunk ((x :: t).take size) :: feedPieces size fuel ((x :: t).drop size)

/-- `feed <bytes>` with the pieces of 65535 bytes that 30_encoding.md R92 gives. -/
def feedChunks (bytes : List Byte) : List Instr := feedPieces maxLength bytes.length bytes

/-- An address of assembly text; above 31 it is refused (30_encoding.md R91). -/
def asmAddr (a : Nat) : Option Addr := if h : a < 32 then some ⟨a, h⟩ else none

/-- The commands a line stands for (30_encoding.md R91, R92); `dec.plain` has the control byte 00. -/
def lineInstrs : AsmLine → Option (List Instr)
  | .chunk bytes => some [.chunk bytes]
  | .stop => some [.stop]
  | .regw a mac => (asmAddr a).map fun a => [.regWrite a mac]
  | .setmc a ctr => (asmAddr a).map fun a => [.setMctr a ctr]
  | .decPlain a seq src dst ct => (asmAddr a).map fun a => [.decryptPlain a false seq src dst ct]
  | .decMaster a seq src dst ct => (asmAddr a).map fun a => [.decryptMaster a seq src dst ct]
  | .decWork a seq src dst ct => (asmAddr a).map fun a => [.decryptWork a seq src dst ct]
  | .feed bytes => some (feedChunks bytes)

/-- The messages of a line; an address above 31, an empty chunk and a byte string longer than 65535 are refused
(30_encoding.md R91). -/
def assembleLine (l : AsmLine) : Option (List (List Byte)) :=
  match lineInstrs l with
  | none => none
  | some is => if is.all Instr.wellFormed then some (is.map encode) else none

/-! ## Reading the text -/

/-- Cut a text at every `sep`. -/
def cutAt (sep : Char) : List Char → List (List Char)
  | [] => [[]]
  | x :: t =>
    match cutAt sep t with
    | [] => [[x]]
    | w :: ws => if x = sep then [] :: w :: ws else (x :: w) :: ws

/-- The words of a text, between spaces, however many there are; no other blank separates words (DESIGN CHOICE, log entry 17). -/
def wordsOf (t : List Char) : List (List Char) := (cutAt ' ' t).filter (· ≠ [])

/-- The hex digits as 30_encoding.md R91 prints them, each at the index that is its value. -/
def capitalDigits : List Char := "0123456789ABCDEF".toList

/-- The same digits with small letters (DESIGN CHOICE, log entry 17). -/
def smallDigits : List Char := "0123456789abcdef".toList

/-- The value of a hex digit, in either case (log entry 17). -/
def hexDigit (c : Char) : Option Nat := (capitalDigits.idxOf? c).or (smallDigits.idxOf? c)

/-- The value of a decimal digit. -/
def decimalDigit (c : Char) : Option Nat := (capitalDigits.take 10).idxOf? c

/-- A byte written as two hex digits, `NN` (00_scope.md R13). -/
def hexByte (w : List Char) : Option Byte :=
  match w with
  | [h, l] => do
    let h ← hexDigit h
    let l ← hexDigit l
    return BitVec.ofNat 8 (16 * h + l)
  | _ => none

/-- Hex digits in pairs, with nothing between them (a MAC or a counter). -/
def hexPairs : List Char → Option (List Byte)
  | [] => some []
  | [_] => none
  | h :: l :: t => do
    let b ← hexByte [h, l]
    let bs ← hexPairs t
    return b :: bs

/-- A fixed-length byte string written as hex digits. -/
def hexFixed (n : Nat) (w : List Char) : Option (Bytes n) := (hexPairs w).bind (toBytes n)

/-- A sequence byte, `0xNN` (30_encoding.md R91). -/
def seqByte (w : List Char) : Option Byte :=
  match w with
  | '0' :: 'x' :: t => hexByte t
  | _ => none

/-- A decimal number of one digit or more. Leading zeros are accepted, so `02` is 2 (DESIGN CHOICE, log entry 17: 30_encoding.md
R91 says "a decimal address 0..31" and no more). -/
def decimal (w : List Char) : Option Nat :=
  if w = [] then none else (w.mapM decimalDigit).map fun ds => ds.foldl (fun n d => 10 * n + d) 0

/-- A byte string: hex bytes separated by spaces, or `-` for the empty string (30_encoding.md R91). -/
def byteString (ws : List (List Char)) : Option (List Byte) :=
  if ws = [['-']] then some []
  else if ws = [] then none
  else ws.mapM hexByte

/-- The five operands of a DECRYPT line, given what to make of them. -/
def decOperands (make : Nat → Byte → Mac → Mac → List Byte → AsmLine) (ops : List (List (List Char))) : Option AsmLine :=
  match ops with
  | [[a], [s], [src], [dst], ct] => do
    let a ← decimal a
    let s ← seqByte s
    let src ← hexFixed 6 src
    let dst ← hexFixed 6 dst
    let ct ← byteString ct
    return make a s src dst ct
  | _ => none

/-- Read one line: a name, then operands separated by commas (30_encoding.md R91). The name stands first in the line: a line
with a blank before it, as ` stop`, is refused (DESIGN CHOICE, log entry 17). -/
def readLine (text : List Char) : Option AsmLine :=
  let name := text.takeWhile (· ≠ ' ')
  let ops := (cutAt ',' (text.dropWhile (· ≠ ' '))).map wordsOf
  if name = "chunk".toList then (match ops with
    | [ws] => (byteString ws).map .chunk
    | _ => none)
  else if name = "feed".toList then (match ops with
    | [ws] => (byteString ws).map .feed
    | _ => none)
  else if name = "stop".toList then (if ops = [[]] then some .stop else none)
  else if name = "regw".toList then (match ops with
    | [[a], [mac]] => do
      let a ← decimal a
      let mac ← hexFixed 6 mac
      return .regw a mac
    | _ => none)
  else if name = "setmc".toList then (match ops with
    | [[a], [ctr]] => do
      let a ← decimal a
      let ctr ← hexFixed 4 ctr
      return .setmc a ctr
    | _ => none)
  else if name = "dec.plain".toList then decOperands .decPlain ops
  else if name = "dec.master".toList then decOperands .decMaster ops
  else if name = "dec.work".toList then decOperands .decWork ops
  else none

/-- The messages of a line of assembly text (30_encoding.md R91, R92). -/
def assemble (text : String) : Option (List (List Byte)) := (readLine text.toList).bind assembleLine

end Sys2Proof.Machine
end

