-- ==== Sys2Proof/Machine/Records.lean ====
section
/-! DEFINITION. The bytes of a record on REC_OUT (30_encoding.md R82, R83). -/

namespace Sys2Proof.Machine

/-- The 32-bit length field of a FRAME record: LE32 where the spec states it, a free value at 2^32 and above, where it states
none (log entry 8). -/
def frameLengthField (n : Nat) : Bytes 4 := if n < 2 ^ 32 then le32 n else Config.longFrameLength n

/-- The wire bytes of a record (30_encoding.md R82, R83). -/
def recordBytes : Record → List Byte
  | .frame f => [0x80] ++ (frameLengthField f.length).toList ++ f
  | .result oc st p => [0xA0, outcomeByte oc, st] ++ le16 p.length ++ p

end Sys2Proof.Machine
end

