-- ==== Sys2Proof/Machine/Rules.lean ====
section
/-! DEFINITION. The commands' rules as functions of CFG and of the record S (20_memory.md R60): the form in which a claim is made
for every legal CFG (92_eei_decisions.md, its opening paragraph) and in which a run is computed under a CFG of one's own. -/

namespace Sys2Proof.Machine

/-- What command `i` does to S under configuration `c`, and the records it emits. -/
def ruleOf (c : Config) (i : Instr) (b : Block) : Effect :=
  match i with
  | .chunk data => chunkRule c data b
  | .stop => stopRule c b
  | .regWrite a mac => regWriteRule a mac b
  | .setMctr a ctr => setMctrRule a ctr b
  | .decryptPlain _ _ _ _ _ _ => decryptPlainRule b
  | .decryptMaster a seq src dst ct => decryptMasterRule c a seq src dst ct b
  | .decryptWork a seq src dst ct => decryptWorkRule c a seq src dst ct b

/-- What a message does to S under configuration `c`: ILLEGAL_COMMAND, or its command's rule (60_exceptions.md R202, R207). -/
def messageRule (c : Config) (m : List Byte) (b : Block) : Effect :=
  match decode m with
  | .error _ => raise .illegalCommand 0x00 b
  | .ok i => ruleOf c i b

/-- A sequence of messages taken in order under configuration `c` (20_memory.md R58, R60): S after them and all the records
emitted, in order; none where a rule answers neither. -/
def runMessages (c : Config) : List (List Byte) → Block → Option (Block × List Record)
  | [], b => some (b, [])
  | m :: ms, b =>
    match messageRule c m b with
    | .done b' rs => (runMessages c ms b').map fun r => (r.1, rs ++ r.2)
    | .overflow _ => none
    | .refusedTail => none
    | .counterMissing => none

end Sys2Proof.Machine
end

