-- ==== Sys2Proof/Safety.lean ====
section
/-! DEFINITION. What a good state is, in the terms the statements use: the invariants the spec states of S. -/

namespace Sys2Proof.Machine

/-- 10_state.md R29: a work key and a work counter are present together or absent together. -/
def KeysPaired (b : Block) : Prop := ∀ a d, readWkey b a d = none ↔ readWctr b a d = none

/-- 40_reassembler.md R113: RB holds no marker at any index at or above the search offset. -/
def Carved (off : Nat) (rb : List Byte) : Prop := ∀ j, off ≤ j → rb[j]? ≠ some marker

/-- 00_scope.md R12: RB is within CFG.RAWBUF_CAP. -/
def WithinCap (cap : Option ℕ+) (rb : List Byte) : Prop := ∀ n, cap = some n → rb.length ≤ n

/-- The invariant of S under configuration `c`. FAULT is false in it: the faulted state is never the state of a run
(60_exceptions.md R203). -/
structure BlockInv (c : Config) (b : Block) : Prop where
  notFaulted : b.fault = false
  keysPaired : KeysPaired b
  carved : Carved c.searchOffset b.rb
  withinCap : WithinCap c.rawbufCap b.rb

/-- The invariant of the machine. -/
def StateInv (s : State) : Prop := BlockInv Config.cfg s.block

/-- `n` steps, stopping at the first fault or refusal: `Host.Core.run` at this machine, over its own state type (the two are equal,
`runSteps_eq_core_run`). -/
def runSteps : Nat → State → Host.Outcome State Fault Refusal
  | 0, s => .next s
  | n + 1, s =>
    match step s with
    | .next t => runSteps n t
    | .fault f => .fault f
    | .refused r => .refused r

/-- The block's state after an outcome: S of the next state, or S with FAULT set of the capacity fault; none where there is
none. -/
def blockAfter : Host.Outcome State Fault Refusal → Option Block
  | .next t => some t.block
  | .fault (.rawBufOverflow t) => some t.block
  | .fault .blockFaulted => none
  | .fault .workCounterMissing => none
  | .refused _ => none

/-- What stops a good run, if anything does: CFG.RAWBUF_CAP exceeded (60_exceptions.md R203) or the refusal of a partial tail
(R204). Every other outcome is a next state (R205). -/
inductive AllowedStop : Host.Outcome State Fault Refusal → Prop where
  | overflow (n : ℕ+) (t : State) (cap : Config.cfg.rawbufCap = some n) (set : t.block.fault = true) :
      AllowedStop (.fault (.rawBufOverflow t))
  | partialTail (mode : Config.cfg.tailMode = .refuse) : AllowedStop (.refused .partialTail)

end Sys2Proof.Machine
end

