-- ==== Sys2Proof/Certificates/Slice0/Obligations.lean ====
section
/-! DEFINITION. The statements for the provers, and the few notions they are written in: what the spec's text says, said a second
time and not by the model's own functions. -/

open Sys2Proof Sys2Proof.Machine

namespace Sys2Proof.Said

/-- The nine conditions of 30_encoding.md R80, in its order, on the bytes of the message. -/
def IllegalMessage (m : List Byte) : Prop :=
  m = [] ∨
  (∃ op, m[0]? = some op ∧ op ∉ [0x01, 0x02, 0x10, 0x11, 0x20]) ∨
  (m[0]? = some 0x01 ∧ (m.length < 3 ∨ u16At m 1 = 0 ∨ m.length ≠ 3 + u16At m 1)) ∨
  (m[0]? = some 0x02 ∧ m.length ≠ 1) ∨
  (m[0]? = some 0x10 ∧ m.length ≠ 8) ∨
  (m[0]? = some 0x11 ∧ m.length ≠ 6) ∨
  (m[0]? = some 0x20 ∧ (m.length < 18 ∨ m.length ≠ 18 + u16At m 16)) ∨
  (∃ op A, m[0]? = some op ∧ op ∈ [0x10, 0x11, 0x20] ∧ m[1]? = some A ∧ A.toNat / 32 ≠ 0) ∨
  (∃ C, m[0]? = some 0x20 ∧ m[2]? = some C ∧ C.toNat / 4 ≠ 0)

/-- The carving loop as 40_reassembler.md R111 and R113 tell it: while some index at or above `off` holds the marker, the bytes
before the least such index are the next frame. `CarveRun off rb frames rest`: from `rb` the loop cuts `frames` and leaves
`rest`. -/
inductive CarveRun (off : Nat) : List Byte → List (List Byte) → List Byte → Prop where
  | none (rb : List Byte) (no : ∀ j, off ≤ j → rb[j]? ≠ some 0xFF) : CarveRun off rb [] rb
  | done (rb : List Byte) (j : Nat) (frames : List (List Byte)) (rest : List Byte) (above : off ≤ j)
      (holds : rb[j]? = some 0xFF) (least : ∀ i, off ≤ i → i < j → rb[i]? ≠ some 0xFF)
      (more : CarveRun off (rb.drop j) frames rest) : CarveRun off rb (rb.take j :: frames) rest

/-- Replace every non-overlapping pair `x y` by `z`, scanning from the left (40_reassembler.md R118). -/
def replacePair (x y z : Byte) : List Byte → List Byte
  | [] => []
  | [u] => [u]
  | u :: v :: t => if u = x ∧ v = y then z :: replacePair x y z t else u :: replacePair x y z (v :: t)

/-- The keystream block of block `i` (41_key_engine.md R141), the previous ciphertext block read byte by byte. -/
def keyBlock (E : Key → CipherBlock → CipherBlock) (k : Key) (iv : CipherBlock) (ct : List Byte) : Nat → CipherBlock
  | 0 => E k iv
  | i + 1 => E k (Vector.ofFn fun t : Fin 16 => ct.getD (16 * i + t) 0)

/-- Full-block CFB encryption, by general knowledge the sender's side of the construction (90_conflicts.md C2,
93_implementation_defined.md G2), `fuel` blocks from the feedback
block `x`. -/
def cfbEncryptFrom (E : Key → CipherBlock → CipherBlock) (k : Key) : Nat → CipherBlock → List Byte → List Byte
  | 0, _, _ => []
  | fuel + 1, x, p =>
    let c := xorBytes (p.take 16) (E k x).toList
    c ++ (match toBytes 16 c with
      | some y => cfbEncryptFrom E k fuel y (p.drop 16)
      | none => [])

/-- Full-block CFB encryption of `p` (90_conflicts.md C2, 93_implementation_defined.md G2). -/
def cfbEncrypt (E : Key → CipherBlock → CipherBlock) (k : Key) (iv : CipherBlock) (p : List Byte) : List Byte :=
  cfbEncryptFrom E k (blockCount p.length) iv p

/-- The two records S agree on every entry of address `a`. -/
def AgreeAt (a : Addr) (b b' : Block) : Prop :=
  readReg b a = readReg b' a ∧ readMctr b a = readMctr b' a ∧
  ∀ d, readWkey b a d = readWkey b' a d ∧ readWctr b a d = readWctr b' a d

/-- The address of a DECRYPT command. -/
def decryptAddr : Instr → Option Addr
  | .chunk _ => none
  | .stop => none
  | .regWrite _ _ => none
  | .setMctr _ _ => none
  | .decryptPlain a _ _ _ _ _ => some a
  | .decryptMaster a _ _ _ _ => some a
  | .decryptWork a _ _ _ _ => some a

/-- A ciphertext of this length is decrypted under CFG.TAIL_MODE (41_key_engine.md R142). -/
def TailTaken (mode : TailMode) (n : Nat) : Prop := mode = .refuse → n % 16 = 0

/-- A DECRYPT.MASTER or DECRYPT.WORK whose ciphertext is no multiple of 16 bytes and which gets past its key checks
(60_exceptions.md R204 and R207, checks 4 and 5). That the work path wants its counter too is log entry 6. -/
def PartialTailPastKeyChecks (i : Instr) (b : Block) : Prop :=
  (∃ a seq src dst ct, i = .decryptMaster a seq src dst ct ∧ ct.length % 16 ≠ 0 ∧ readMctr b a ≠ none) ∨
  (∃ a seq src dst ct dir, i = .decryptWork a seq src dst ct ∧ ct.length % 16 ≠ 0 ∧ (dirTest b a src dst).1 = some dir ∧
    readWkey b a dir ≠ none ∧ readWctr b a dir ≠ none)

/-- RawBuffer may hold `n` bytes under CFG.RAWBUF_CAP (00_scope.md R12). -/
def Fits (cap : Option ℕ+) (n : Nat) : Prop := ∀ c, cap = some c → n ≤ c

end Sys2Proof.Said

open Sys2Proof.Said

/-! ## Encoding -/

/-- No bit of any command's encoding is dropped: the message of a well-formed command decodes to it (30_encoding.md R71 to
R78). -/
def Obligations.DecodeOfEncodeGivesTheCommand : Prop :=
  ∀ i : Instr, i.wellFormed = true → decode (encode i) = .ok i

/-- A legal message has one reading and is the message of what it reads as (30_encoding.md R70 to R79; the ignored KIND bit is an
operand, log entry 11). -/
def Obligations.LegalMessageIsTheEncodingOfItsCommand : Prop :=
  ∀ (m : List Byte) (i : Instr), decode m = .ok i → i.wellFormed = true ∧ encode i = m

/-- 30_encoding.md R80 and 60_exceptions.md R202: the decoder rejects exactly the messages that meet one of the nine conditions,
and a step that takes such a message emits the one ILLEGAL_COMMAND record, leaves the block's state as it was and goes on
with the next message. -/
def Obligations.IllegalMessagesAreTheNineConditionsAndChangeNothing : Prop :=
  (∀ m : List Byte, (∃ e, decode m = .error e) ↔ IllegalMessage m) ∧
  ∀ (s : State) (m : List Byte) (rest : List (List Byte)), s.block.fault = false → s.cmdIn = m :: rest →
    IllegalMessage m →
    step s = .next (emit (.result .illegalCommand 0x00 []) { s with cmdIn := rest })

/-- A message whose length is not the length that R93's table gives is illegal (30_encoding.md R70, R93). -/
def Obligations.MessageOfAnotherLengthIsIllegal : Prop :=
  ∀ m : List Byte, expectedLength m ≠ some m.length → ∃ e, decode m = .error e

/-- Words written out from the formats of 30_encoding.md Part 2 (they are the rows of 95_test_vectors.md, "Encoding") decode to the
commands they stand for. -/
def Obligations.WordsOfTheFormatsDecode : Prop :=
  decode [0x01, 0x02, 0x00, 0xFF, 0x01] = .ok (.chunk [0xFF, 0x01]) ∧
  decode [0x02] = .ok .stop ∧
  decode [0x10, 0x02, 0xA1, 0xA2, 0xA3, 0xA4, 0xA5, 0xA6] = .ok (.regWrite 2 #v[0xA1, 0xA2, 0xA3, 0xA4, 0xA5, 0xA6]) ∧
  decode [0x11, 0x02, 0x01, 0x00, 0x00, 0x00] = .ok (.setMctr 2 #v[0x01, 0x00, 0x00, 0x00]) ∧
  decode [0x20, 0x1F, 0x03, 0xFF, 0x11, 0x12, 0x13, 0x14, 0x15, 0x16, 0xA1, 0xA2, 0xA3, 0xA4, 0xA5, 0xA6, 0x01, 0x00, 0x00] =
    .ok (.decryptWork 31 0xFF #v[0x11, 0x12, 0x13, 0x14, 0x15, 0x16] #v[0xA1, 0xA2, 0xA3, 0xA4, 0xA5, 0xA6] [0x00])

/-- 30_encoding.md R82 and R83, and the codes of R84: the bytes of the records on REC_OUT. -/
def Obligations.RecordBytesFollowTheFormats : Prop :=
  (∀ f : List Byte, f.length < 2 ^ 32 →
    ∃ len : Bytes 4, u32 len = f.length ∧ recordBytes (.frame f) = 0x80 :: (len.toList ++ f)) ∧
  (∀ (oc : OutcomeCode) (st : Byte) (p : List Byte), p.length < 2 ^ 16 →
    ∃ lo hi : Byte, u16 lo hi = p.length ∧ recordBytes (.result oc st p) = 0xA0 :: outcomeByte oc :: st :: lo :: hi :: p) ∧
  [outcomeByte .decoded, outcomeByte .notEncrypted, outcomeByte .missingMasterCounter, outcomeByte .missingWorkKey,
    outcomeByte .malformed, outcomeByte .lostAck, outcomeByte .illegalCommand] = [0x00, 0x01, 0x02, 0x03, 0x04, 0x05, 0x0E]

/-- The expansion of `feed` (30_encoding.md R92): consecutive pieces of 65535 bytes, the last one shorter if it must be, every one a
legal chunk, together the whole string; nothing for the empty string. -/
def Obligations.FeedCutsTheStreamIntoLegalChunks : Prop :=
  ∀ bytes : List Byte, ∃ pieces : List (List Byte), feedChunks bytes = pieces.map .chunk ∧ pieces.flatten = bytes ∧
    (∀ p ∈ pieces, 1 ≤ p.length ∧ p.length ≤ 65535) ∧ (∀ p ∈ pieces.dropLast, p.length = 65535)

/-- Whatever the assembler of 30_encoding.md R91 accepts, every message it makes is a legal command. -/
def Obligations.AssembledMessagesAreLegal : Prop :=
  ∀ (l : AsmLine) (ms : List (List Byte)), assembleLine l = some ms → ∀ m ∈ ms, ∃ i, decode m = .ok i

/-! ## Steps, channels, reset -/

/-- A step runs the decoded command (20_memory.md R56, R58): with FAULT clear and a legal message at the front of CMD_IN, the step is
exec of its command on the state without that message. -/
def Obligations.StepRunsTheDecodedCommand : Prop :=
  ∀ (s : State) (m : List Byte) (rest : List (List Byte)) (i : Instr), s.block.fault = false → s.cmdIn = m :: rest →
    decode m = .ok i → step s = exec i { s with cmdIn := rest }

/-- With no message in CMD_IN the block waits and nothing changes (70_reset_and_hazards.md R238; that a wait is a step which answers
the same state is the model's choice, log entry 4). -/
def Obligations.EmptyChannelLeavesTheStateAsItIs : Prop :=
  ∀ s : State, s.block.fault = false → s.cmdIn = [] → step s = .next s

/-- 20_memory.md R57: one emit takes one draw; accepted, the record is the newest on REC_OUT, dropped, it is the newest DROP indication,
and the block's state is unchanged either way; the host takes records from the front. The draw counter is the model's (log
entry 2). -/
def Obligations.EmitAppendsOrDropsAndKeepsTheBlock : Prop :=
  (∀ (r : Record) (s : State),
    (emit r s).block = s.block ∧ (emit r s).cmdIn = s.cmdIn ∧ (emit r s).draws = s.draws + 1 ∧
    (emit r s).recOut = (if Config.accept s.draws = true then s.recOut ++ [r] else s.recOut) ∧
    (emit r s).dropLine = (if Config.accept s.draws = true then s.dropLine else s.dropLine ++ [r])) ∧
  ∀ (s : State) (r : Record) (rs : List Record), s.recOut = r :: rs → hostReceive s = some (r, { s with recOut := rs })

/-- 20_memory.md R61, an inference the spec marks as its own: records delivered together reach REC_OUT or the diagnostic line, each
exactly once (the kept and the dropped ones together are the records, none lost and none doubled), and on each of the two in
emission order, whatever the draws. -/
def Obligations.RecordsKeepTheirOrder : Prop :=
  ∀ (rs : List Record) (s : State), ∃ kept dropped : List Record,
    kept.Sublist rs ∧ dropped.Sublist rs ∧ (kept ++ dropped).Perm rs ∧
    (emitAll rs s).recOut = s.recOut ++ kept ∧ (emitAll rs s).dropLine = s.dropLine ++ dropped ∧
    (emitAll rs s).draws = s.draws + rs.length ∧ (emitAll rs s).block = s.block ∧ (emitAll rs s).cmdIn = s.cmdIn

/-- 20_memory.md R57, "A drop never changes the block's state": two states that agree on S and on CMD_IN, whatever their draws and
records, step to the same S. -/
def Obligations.BlockStateDoesNotDependOnTheDraws : Prop :=
  ∀ s s' : State, s.block = s'.block → s.cmdIn = s'.cmdIn →
    blockAfter (step s) = blockAfter (step s') ∧ ((∃ t, step s = .next t) ↔ ∃ t', step s' = .next t')

/-- 10_state.md R34 and 70_reset_and_hazards.md R230: reset leaves every element of S at its reset value and the channels as they are;
the machine's reset state has the same S. -/
def Obligations.ResetEmptiesTheBlockAndKeepsTheChannels : Prop :=
  ∀ s : State,
    (resetEvent s).block.rb = [] ∧ (resetEvent s).block.fault = false ∧
    (∀ a, readReg (resetEvent s).block a = none ∧ readMctr (resetEvent s).block a = none ∧
      ∀ d, readWkey (resetEvent s).block a d = none ∧ readWctr (resetEvent s).block a d = none) ∧
    (resetEvent s).cmdIn = s.cmdIn ∧ (resetEvent s).recOut = s.recOut ∧ (resetEvent s).dropLine = s.dropLine ∧
    State.reset.block = (resetEvent s).block

/-! ## CHUNK and the reassembler -/

/-- CARVE cuts at the least marker at or above the search offset (40_reassembler.md R111), and finds nothing only where there is
none. -/
def Obligations.CarveCutsAtTheLeastMarker : Prop :=
  ∀ (off : Nat) (rb : List Byte),
    (carve off rb = none ↔ ∀ j, off ≤ j → rb[j]? ≠ some 0xFF) ∧
    ∀ f rest, carve off rb = some (f, rest) ↔
      ∃ j, off ≤ j ∧ rb[j]? = some 0xFF ∧ (∀ i, off ≤ i → i < j → rb[i]? ≠ some 0xFF) ∧ f = rb.take j ∧ rest = rb.drop j

/-- 40_reassembler.md R111 and R113: a CHUNK that fits completes; it runs the carving loop on RB with the chunk behind it to the end,
emits one FRAME per frame, unescaped, in stream order, leaves in RB what the loop leaves, which holds no marker at or above
the search offset, and changes nothing else. -/
def Obligations.ChunkCarvesEveryCompleteFrame : Prop :=
  ∀ (data : List Byte) (s : State), Fits Config.cfg.rawbufCap (s.block.rb.length + data.length) →
    ∃ frames rest, CarveRun Config.cfg.searchOffset (s.block.rb ++ data) frames rest ∧
      (∀ j, (Config.cfg.searchOffset : Nat) ≤ j → rest[j]? ≠ some 0xFF) ∧
      exec (.chunk data) s =
        .next (emitAll (frames.map fun f => .frame (unescape f)) { s with block := { s.block with rb := rest } })

/-- 60_exceptions.md R203: under every CFG, a CHUNK past the capacity sets FAULT and does nothing else; exactly such a CHUNK stops the
machine, and it stops with that state; while FAULT is set no step is taken; reset clears it; without a capacity it cannot
happen. That both stops are fault outcomes is read from R203 (log entry 5). -/
def Obligations.ChunkPastTheCapacityFaults : Prop :=
  (∀ (c : Config) (n : ℕ+) (data : List Byte) (b : Block), c.rawbufCap = some n → (n : Nat) < b.rb.length + data.length →
    ruleOf c (.chunk data) b = .overflow { b with fault := true }) ∧
  (∀ (data : List Byte) (s : State),
    exec (.chunk data) s = .fault (.rawBufOverflow { s with block := { s.block with fault := true } }) ↔
      ∃ n, Config.cfg.rawbufCap = some n ∧ (n : Nat) < s.block.rb.length + data.length) ∧
  (∀ s : State, s.block.fault = true → step s = .fault .blockFaulted ∧ (resetEvent s).block.fault = false) ∧
  ∀ (c : Config) (i : Instr) (b b' : Block), c.rawbufCap = none → ruleOf c i b ≠ .overflow b'

/-- 40_reassembler.md R112 with the table of 30_encoding.md R87: `FE 01` stands for FF, `FE 02` for FE, every other byte for itself, in
one pass from the left. -/
def Obligations.UnescapeFollowsTheTable : Prop :=
  unescape [] = [] ∧ (∀ x, unescape [x] = [x]) ∧
  (∀ t, unescape (0xFE :: 0x01 :: t) = 0xFF :: unescape t) ∧
  (∀ t, unescape (0xFE :: 0x02 :: t) = 0xFE :: unescape t) ∧
  ∀ x y t, ¬(x = 0xFE ∧ (y = 0x01 ∨ y = 0x02)) → unescape (x :: y :: t) = x :: unescape (y :: t)

/-- One pass equals two whole-string replacements in sequence (40_reassembler.md R118, an inference the spec marks as its own). -/
def Obligations.UnescapeIsTwoReplacementsInSequence : Prop :=
  ∀ f : List Byte, unescape f = replacePair 0xFE 0x02 0xFE (replacePair 0xFE 0x01 0xFF f)

/-- Every carved frame is non-empty and unescaping at most halves it (40_reassembler.md R117, an inference the spec marks as its
own). -/
def Obligations.NoFrameIsEmpty : Prop :=
  (∀ (off : Nat) (rb f : List Byte), 1 ≤ off → f ∈ (carveAll off rb).1 → f ≠ []) ∧
  ∀ f : List Byte, f.length ≤ 2 * (unescape f).length

/-- The frames and the rest are the stream, cut and nothing else: no byte is lost or read twice, and every frame after the first, and
what stays after a cut, begins with the marker (10_state.md R22, 40_reassembler.md R114). -/
def Obligations.CarvingPartitionsTheStream : Prop :=
  ∀ (off : Nat) (rb : List Byte), 1 ≤ off →
    (carveAll off rb).1.flatten ++ (carveAll off rb).2 = rb ∧
    (∀ f ∈ (carveAll off rb).1.tail, f.head? = some 0xFF) ∧
    ((carveAll off rb).1 ≠ [] → (carveAll off rb).2.head? = some 0xFF)

/-- Frame boundaries do not depend on how the stream is split into chunks (40_reassembler.md R116, an inference the spec marks as its
own): two chunks one after the other leave exactly the state that the one chunk of both leaves. -/
def Obligations.ChunkSplitsDoNotMatter : Prop :=
  ∀ (x y : List Byte) (s : State), Fits Config.cfg.rawbufCap (s.block.rb.length + (x.length + y.length)) →
    ∃ t, exec (.chunk x) s = .next t ∧ exec (.chunk y) t = exec (.chunk (x ++ y)) s

/-! ## STOP, REG_WRITE, SET_MCTR -/

/-- 42_session.md R190: STOP empties RB, clears every table unless CFG.RETAIN_ON_STOP, leaves FAULT, and emits nothing. -/
def Obligations.StopEndsTheSession : Prop :=
  ∀ s : State, ∃ t, exec .stop s = .next t ∧ t = { s with block := t.block } ∧ t.block.rb = [] ∧
    t.block.fault = s.block.fault ∧
    ∀ a, readReg t.block a = (if Config.cfg.retainOnStop = true then readReg s.block a else none) ∧
      readMctr t.block a = (if Config.cfg.retainOnStop = true then readMctr s.block a else none) ∧
      ∀ d, readWkey t.block a d = (if Config.cfg.retainOnStop = true then readWkey s.block a d else none) ∧
        readWctr t.block a d = (if Config.cfg.retainOnStop = true then readWctr s.block a d else none)

/-- What a session begins with after a STOP (42_session.md R191): the reset state when CFG.RETAIN_ON_STOP is false, the tables the last
session left, with RB empty, when it is true. -/
def Obligations.NextSessionStartsAsRetentionSays : Prop :=
  ∀ (c : Config) (b : Block), b.fault = false →
    (c.retainOnStop = false → ruleOf c .stop b = .done State.reset.block []) ∧
    (c.retainOnStop = true → ruleOf c .stop b = .done { b with rb := [] } [])

/-- 41_key_engine.md R149: `REG[a]` holds the MAC after it, and nothing else has changed. -/
def Obligations.RegWriteSetsOneRegistryEntry : Prop :=
  ∀ (a : Addr) (mac : Mac) (s : State), ∃ t, exec (.regWrite a mac) s = .next t ∧ t = { s with block := t.block } ∧
    readReg t.block a = some mac ∧ (∀ a', a' ≠ a → readReg t.block a' = readReg s.block a') ∧
    t.block = { s.block with reg := t.block.reg }

/-- 41_key_engine.md R150: `MCTR[a]` holds the counter after it, and nothing else has changed. -/
def Obligations.SetMctrSetsOneMasterCounter : Prop :=
  ∀ (a : Addr) (ctr : Counter) (s : State), ∃ t, exec (.setMctr a ctr) s = .next t ∧ t = { s with block := t.block } ∧
    readMctr t.block a = some ctr ∧ (∀ a', a' ≠ a → readMctr t.block a' = readMctr s.block a') ∧
    t.block = { s.block with mctr := t.block.mctr }

/-- REG_WRITE, SET_MCTR and STOP are idempotent (20_memory.md R64, an inference the spec marks as its own). -/
def Obligations.RegWriteSetMctrAndStopAreIdempotent : Prop :=
  ∀ (i : Instr) (s t : State), ((∃ a mac, i = .regWrite a mac) ∨ (∃ a ctr, i = .setMctr a ctr) ∨ i = .stop) →
    exec i s = .next t → exec i t = .next t

/-! ## The functions of the key engine -/

/-- 00_scope.md R15: LE16 and LE32 are the inverses of U16 and U32, and a counter is LE32 of its U32. -/
def Obligations.LittleEndianReadingAndWritingAreInverse : Prop :=
  (∀ n : Nat, n < 2 ^ 16 → u16At (le16 n) 0 = n) ∧ (∀ n : Nat, n < 2 ^ 32 → u32 (le32 n) = n) ∧
  ∀ ctr : Counter, u32 ctr < 2 ^ 32 ∧ le32 (u32 ctr) = ctr

/-- 41_key_engine.md R145: counter arithmetic is modulo 2^32. -/
def Obligations.IncrementCountsModuloTwoToTheThirtyTwo : Prop :=
  (∀ ctr : Counter, u32 (inc32 ctr) = (u32 ctr + 1) % 2 ^ 32) ∧
  inc32 #v[0xFF, 0xFF, 0xFF, 0xFF] = #v[0x00, 0x00, 0x00, 0x00] ∧ inc32 #v[0xFF, 0x00, 0x00, 0x00] = #v[0x00, 0x01, 0x00, 0x00]

/-- 41_key_engine.md R144: in step, one frame behind, or forced, with the status bit each reports. -/
def Obligations.ResynchronisationHasThreeCases : Prop :=
  ∀ (high : ResyncHigh) (ctr : Counter) (seq : Byte),
    (ctr[0] = seq → resync high ctr seq = (ctr, 0x00)) ∧
    (ctr[0] ≠ seq → (inc32 ctr)[0] = seq → resync high ctr seq = (inc32 ctr, 0x01)) ∧
    (ctr[0] ≠ seq → (inc32 ctr)[0] ≠ seq →
      (resync high ctr seq).2 = 0x02 ∧ (resync high ctr seq).1[0] = seq ∧
      ∀ i : Fin 4, i ≠ 0 →
        (resync high ctr seq).1[i] = (match high with | .incremented => (inc32 ctr)[i] | .original => ctr[i]))

/-- The counter in use always carries the frame's sequence byte; it is forced exactly when S is neither the low byte nor the low byte plus
one modulo 256 (41_key_engine.md R144), and CFG.RESYNC_HIGH matters only when the stored low byte is FF (00_scope.md R11). -/
def Obligations.ResynchronisedCounterCarriesTheSequenceByte : Prop :=
  ∀ (high : ResyncHigh) (ctr : Counter) (seq : Byte),
    (resync high ctr seq).1[0] = seq ∧
    ((resync high ctr seq).2 = stCtrForced ↔ seq ≠ ctr[0] ∧ seq.toNat ≠ (ctr[0].toNat + 1) % 256) ∧
    ((resync high ctr seq).2 = stCtrInc ↔ seq.toNat = (ctr[0].toNat + 1) % 256) ∧
    (ctr[0] ≠ 0xFF → resync .incremented ctr seq = resync .original ctr seq)

/-- 41_key_engine.md R147: the direction test, source first. -/
def Obligations.DirectionTestComparesSourceThenDestination : Prop :=
  ∀ (b : Block) (a : Addr) (src dst : Mac),
    (readReg b a = none → dirTest b a src dst = (none, 0x10)) ∧
    ∀ mac, readReg b a = some mac →
      (src = mac → dirTest b a src dst = (some .out, 0x08)) ∧
      (src ≠ mac → dst = mac → dirTest b a src dst = (some .inn, 0x00)) ∧
      (src ≠ mac → dst ≠ mac → dirTest b a src dst = (none, 0x10))

/-- 41_key_engine.md R146 with the layout of 30_encoding.md R88: source MAC, destination MAC, counter. -/
def Obligations.IvIsSourceDestinationCounter : Prop :=
  ∀ (src dst : Mac) (ctr : Counter), (ivOf src dst ctr).toList = src.toList ++ dst.toList ++ ctr.toList

/-- 41_key_engine.md R141, byte by byte: the plaintext has the ciphertext's length, and byte j is ciphertext byte j under the keystream
block of j's 16-byte block, which is E of the IV for the first block and E of the previous ciphertext block after it. -/
def Obligations.ChainDecryptsEachByteUnderItsKeystreamBlock : Prop :=
  ∀ (E : Key → CipherBlock → CipherBlock) (k : Key) (iv : CipherBlock) (ct : List Byte),
    (chain E k iv ct).length = ct.length ∧
    ∀ (j : Nat) (h : j < ct.length),
      (chain E k iv ct)[j]? = some (ct[j] ^^^ (keyBlock E k iv ct (j / 16))[j % 16]'(Nat.mod_lt _ (by omega)))

/-- One corrupted ciphertext block corrupts at most itself and the next block (41_key_engine.md R143, an inference the spec marks as its
own). -/
def Obligations.CorruptionReachesAtMostTheNextBlock : Prop :=
  ∀ (E : Key → CipherBlock → CipherBlock) (k : Key) (iv : CipherBlock) (ct ct' : List Byte) (i : Nat),
    ct.length = ct'.length → (∀ j, j / 16 ≠ i → ct[j]? = ct'[j]?) →
    ∀ j, j / 16 ≠ i → j / 16 ≠ i + 1 → (chain E k iv ct)[j]? = (chain E k iv ct')[j]?

/-- The chained cipher inverts full-block CFB encryption, for texts of any length (41_key_engine.md R141, R142). That the construction is
full-block CFB decryption, and so that this is what a device's sender computes, is general knowledge the spec notes
(90_conflicts.md C2, 93_implementation_defined.md G2) and no rule of it. -/
def Obligations.ChainInvertsFullBlockCfbEncryption : Prop :=
  ∀ (E : Key → CipherBlock → CipherBlock) (k : Key) (iv : CipherBlock) (p : List Byte),
    chain E k iv (cfbEncrypt E k iv p) = p

/-! ## DECRYPT -/

/-- 41_key_engine.md R152: DECRYPT.PLAIN reports NOT_ENCRYPTED with a zero status, from any state and for any operands, and the block's state
is unchanged. -/
def Obligations.DecryptPlainReportsNotEncrypted : Prop :=
  ∀ (a : Addr) (kind : Bool) (seq : Byte) (src dst : Mac) (ct : List Byte) (s : State), ∃ t,
    exec (.decryptPlain a kind seq src dst ct) s = .next t ∧ t = emit (.result .notEncrypted 0x00 []) s ∧ t.block = s.block

/-- DECRYPT.MASTER without a master counter (41_key_engine.md R153, first check): MISSING_MASTER_COUNTER with the direction test's status,
and no state changes. -/
def Obligations.MasterPathWithoutCounterIsReported : Prop :=
  ∀ (a : Addr) (seq : Byte) (src dst : Mac) (ct : List Byte) (s : State), readMctr s.block a = none →
    exec (.decryptMaster a seq src dst ct) s =
      .next (emit (.result .missingMasterCounter (dirTest s.block a src dst).2 []) s)

/-- DECRYPT.MASTER with a master counter (41_key_engine.md R153) and the key installation of R148: it completes, reports the plaintext,
stores the resynchronised counter, installs the plaintext's last 20 bytes as work counter and work key of the direction if
there is one and the plaintext has 20 bytes, and changes nothing else. -/
def Obligations.MasterPathDecryptsStoresTheCounterAndInstallsTheKey : Prop :=
  ∀ (a : Addr) (seq : Byte) (src dst : Mac) (ct : List Byte) (s : State) (ctr : Counter),
    readMctr s.block a = some ctr → TailTaken Config.cfg.tailMode ct.length →
    ∀ d r p, d = dirTest s.block a src dst → r = resync Config.cfg.resyncHigh ctr seq →
      p = chain Config.cfg.encrypt Config.cfg.masterKey (ivOf src dst r.1) ct →
      ∃ t, exec (.decryptMaster a seq src dst ct) s = .next t ∧
        t = emit (.result .decoded
          (d.2 ||| r.2 ||| (if p.length < 20 then 0x20 else if d.1 = none then 0x00 else 0x04)) p) { s with block := t.block } ∧
        readMctr t.block a = some r.1 ∧ (∀ a', a' ≠ a → readMctr t.block a' = readMctr s.block a') ∧
        (∀ dir, d.1 = some dir → 20 ≤ p.length →
          (readWkey t.block a dir).map Vector.toList = some (p.drop (p.length - 16)) ∧
          (readWctr t.block a dir).map Vector.toList = some ((p.drop (p.length - 20)).take 4)) ∧
        (∀ a' dir, ¬(a' = a ∧ d.1 = some dir ∧ 20 ≤ p.length) →
          readWkey t.block a' dir = readWkey s.block a' dir ∧ readWctr t.block a' dir = readWctr s.block a' dir) ∧
        t.block.rb = s.block.rb ∧ t.block.fault = s.block.fault ∧ t.block.reg = s.block.reg

/-- DECRYPT.WORK with no direction, or no work key for it (41_key_engine.md R154, first check): MISSING_WORK_KEY with the direction test's
status, and no state changes. -/
def Obligations.WorkPathWithoutKeyIsReported : Prop :=
  ∀ (a : Addr) (seq : Byte) (src dst : Mac) (ct : List Byte) (s : State),
    (∀ dir, (dirTest s.block a src dst).1 = some dir → readWkey s.block a dir = none) →
    exec (.decryptWork a seq src dst ct) s = .next (emit (.result .missingWorkKey (dirTest s.block a src dst).2 []) s)

/-- DECRYPT.WORK with a work key and counter of its direction (41_key_engine.md R154): it completes, reports the plaintext, stores the
resynchronised counter plus one, and changes nothing else. -/
def Obligations.WorkPathDecryptsAndAdvancesTheCounter : Prop :=
  ∀ (a : Addr) (seq : Byte) (src dst : Mac) (ct : List Byte) (s : State) (dir : Dir) (st : Byte) (key : Key) (ctr : Counter),
    dirTest s.block a src dst = (some dir, st) → readWkey s.block a dir = some key → readWctr s.block a dir = some ctr →
    TailTaken Config.cfg.tailMode ct.length →
    ∀ r, r = resync Config.cfg.resyncHigh ctr seq →
      ∃ t, exec (.decryptWork a seq src dst ct) s = .next t ∧
        t = emit (.result .decoded (st ||| r.2) (chain Config.cfg.encrypt key (ivOf src dst r.1) ct))
          { s with block := t.block } ∧
        readWctr t.block a dir = some (inc32 r.1) ∧
        (∀ a' dir', ¬(a' = a ∧ dir' = dir) → readWctr t.block a' dir' = readWctr s.block a' dir') ∧
        t.block = { s.block with wctr := t.block.wctr }

/-- Under every CFG a command is refused exactly when CFG.TAIL_MODE is refuse and it is a DECRYPT.MASTER or DECRYPT.WORK with a partial tail
that has passed its key checks (41_key_engine.md R142, 60_exceptions.md R204, the order of R207; that a refusal ends the run is the model's form of it, log entry 7). -/
def Obligations.PartialTailIsRefusedOnlyWhenConfigured : Prop :=
  (∀ (c : Config) (i : Instr) (b : Block),
    ruleOf c i b = .refusedTail ↔ c.tailMode = .refuse ∧ PartialTailPastKeyChecks i b) ∧
  ∀ (i : Instr) (s : State), exec i s = .refused .partialTail ↔ ruleOf Config.cfg i s.block = .refusedTail

/-- A key installed by a DECRYPT.MASTER serves the very next DECRYPT.WORK of the same endpoints (70_reset_and_hazards.md R237, R233, inferences
the spec marks as its own). -/
def Obligations.InstalledKeyServesTheNextWorkFrame : Prop :=
  ∀ (a : Addr) (seq seq' : Byte) (src dst : Mac) (ct ct' : List Byte) (s t : State) (dir : Dir),
    readMctr s.block a ≠ none → (dirTest s.block a src dst).1 = some dir → 20 ≤ ct.length →
    exec (.decryptMaster a seq src dst ct) s = .next t → TailTaken Config.cfg.tailMode ct'.length →
    ∃ key ctr u, readWkey t.block a dir = some key ∧ readWctr t.block a dir = some ctr ∧
      exec (.decryptWork a seq' src dst ct') t = .next u ∧
      u = emit (.result .decoded (stDir dir ||| (resync Config.cfg.resyncHigh ctr seq').2)
        (chain Config.cfg.encrypt key (ivOf src dst (resync Config.cfg.resyncHigh ctr seq').1) ct')) { t with block := u.block }

/-- A DECRYPT reads and writes only entries of its own address (41_key_engine.md R151): records S that agree there give the same records and
agree there afterwards, and every entry of every other address is unchanged. -/
def Obligations.DecryptReadsAndWritesOnlyItsOwnAddress : Prop :=
  ∀ (c : Config) (i : Instr) (a : Addr) (b₁ b₂ b₁' : Block) (rs : List Record), decryptAddr i = some a →
    AgreeAt a b₁ b₂ → ruleOf c i b₁ = .done b₁' rs →
    (∀ a', a' ≠ a → AgreeAt a' b₁ b₁') ∧ ∃ b₂', ruleOf c i b₂ = .done b₂' rs ∧ AgreeAt a b₁' b₂'

/-! ## The whole machine -/

/-- A raised outcome changes no state and carries no plaintext (00_scope.md R17, 60_exceptions.md R208). -/
def Obligations.RaisedOutcomesChangeNoState : Prop :=
  ∀ (c : Config) (i : Instr) (b b' : Block) (rs : List Record) (oc : OutcomeCode) (st : Byte) (p : List Byte),
    ruleOf c i b = .done b' rs → .result oc st p ∈ rs → oc ≠ .decoded → b' = b ∧ p = []

/-- Which records a command may emit (30_encoding.md R84, R85, 60_exceptions.md R207): no frame is empty; at most one RESULT; never the parser's
codes; status bits 7:6 zero; no DIR with NO_DIR, no CTR_INC with CTR_FORCED, no KEY_INSTALLED with SHORT_PT or NO_DIR; status
zero with NOT_ENCRYPTED; only DIR or NO_DIR with a missing counter or key. -/
def Obligations.EmittedRecordsAreLegal : Prop :=
  ∀ (c : Config) (i : Instr) (b b' : Block) (rs : List Record), ruleOf c i b = .done b' rs →
    (∀ f, .frame f ∈ rs → f ≠ []) ∧
    ∀ oc st p, .result oc st p ∈ rs →
      rs = [.result oc st p] ∧ oc ≠ .malformed ∧ oc ≠ .lostAck ∧ oc ≠ .illegalCommand ∧
      st &&& 0xC0 = 0x00 ∧ st &&& 0x18 ≠ 0x18 ∧ st &&& 0x03 ≠ 0x03 ∧ st &&& 0x24 ≠ 0x24 ∧ st &&& 0x14 ≠ 0x14 ∧
      (oc = .notEncrypted → st = 0x00) ∧
      (oc = .missingMasterCounter ∨ oc = .missingWorkKey → st = 0x00 ∨ st = 0x08 ∨ st = 0x10)

/-- Who writes what (10_state.md R22, R24, R26, R27, R28; 41_key_engine.md R156): when a command gives a next state, RB has changed only by CHUNK or
STOP, the registry only by REG_WRITE or STOP, the master counters only by SET_MCTR, DECRYPT.MASTER or STOP, the work keys only
by DECRYPT.MASTER or STOP, the work counters only by DECRYPT.MASTER, DECRYPT.WORK or STOP, and FAULT by none. -/
def Obligations.EachPieceOfStateHasItsOnlyWriters : Prop :=
  ∀ (i : Instr) (s t : State), exec i s = .next t →
    (t.block.rb ≠ s.block.rb → (∃ data, i = .chunk data) ∨ i = .stop) ∧
    (t.block.reg ≠ s.block.reg → (∃ a mac, i = .regWrite a mac) ∨ i = .stop) ∧
    (t.block.mctr ≠ s.block.mctr →
      (∃ a ctr, i = .setMctr a ctr) ∨ (∃ a seq src dst ct, i = .decryptMaster a seq src dst ct) ∨ i = .stop) ∧
    (t.block.wkey ≠ s.block.wkey → (∃ a seq src dst ct, i = .decryptMaster a seq src dst ct) ∨ i = .stop) ∧
    (t.block.wctr ≠ s.block.wctr →
      (∃ a seq src dst ct, i = .decryptMaster a seq src dst ct) ∨ (∃ a seq src dst ct, i = .decryptWork a seq src dst ct) ∨
        i = .stop) ∧
    t.block.fault = s.block.fault ∧ t.cmdIn = s.cmdIn

/-- The invariant holds after reset. -/
def Obligations.InvariantHoldsAtReset : Prop := StateInv State.reset

/-- Every step keeps the invariant: FAULT clear, work keys and work counters paired (10_state.md R29), no marker left in RB at or above the search
offset (40_reassembler.md R113), RB within its capacity (00_scope.md R12). -/
def Obligations.EveryStepKeepsTheInvariant : Prop :=
  ∀ s t : State, StateInv s → step s = .next t → StateInv t

/-- From a good state a step gives a next state, but for the two stops the spec names: the capacity fault and the refusal of a partial tail
(60_exceptions.md R205, R203, R204); the model's own fault (log entry 6) does not occur. -/
def Obligations.GoodStatesStopOnlyAsTheSpecAllows : Prop :=
  ∀ s : State, StateInv s → (∃ t, step s = .next t) ∨ AllowedStop (step s)

/-- Liveness (70_reset_and_hazards.md R238, an inference the spec marks as its own) in channel order (20_memory.md R58): from a good state, after
any number k of steps up to the number of messages, the first k messages have been taken, the others wait in their order, and
the next step takes message k, unless one of the two allowed stops has come. -/
def Obligations.EveryMessageIsTakenInItsTurn : Prop :=
  ∀ (s : State) (k : Nat), StateInv s → k ≤ s.cmdIn.length →
    (∃ t, runSteps k s = .next t ∧ t.cmdIn = s.cmdIn.drop k ∧
      ∀ m, s.cmdIn[k]? = some m → step t = takeMessage m { t with cmdIn := s.cmdIn.drop (k + 1) }) ∨
    AllowedStop (runSteps k s)

/-- The machine's run is the composition of the command rules in channel order, its records theirs in order (20_memory.md R58, R60, R61, the last
two inferences the spec marks as its own). -/
def Obligations.RunIsTheCompositionOfTheRules : Prop :=
  ∀ (s : State) (b : Block) (rs : List Record), s.block.fault = false →
    runMessages Config.cfg s.cmdIn s.block = some (b, rs) →
    runSteps s.cmdIn.length s =
      .next (emitAll rs { s with block := b, cmdIn := [] })
end

