-- ==== Sys2Proof/Laws/Codec.lean ====
section
/-! SUPPORT. Byte strings, fields and length ranges: the small lemmas of the decoder and the encoder. -/

namespace Sys2Proof.Machine

@[simp] theorem slice_length (b : List Byte) (i j : Nat) : (slice b i j).length = min (j - i) (b.length - i) := by
  simp [slice]

@[simp] theorem sliceBytes_toList (b : List Byte) (i n : Nat) (h : i + n ≤ b.length) :
    (sliceBytes b i n h).toList = (b.drop i).take n := rfl

/-- A slice of fixed length is the string it is cut from. -/
theorem sliceBytes_eq_of_toList {b : List Byte} {i n : Nat} (h : i + n ≤ b.length) (v : Bytes n)
    (e : (b.drop i).take n = v.toList) : sliceBytes b i n h = v := by
  apply Vector.toList_inj.1
  rw [sliceBytes_toList, e]

/-- What `toBytes` can answer: the string itself, when it has the length asked for. -/
theorem toBytes_eq_some {n : Nat} {b : List Byte} {v : Bytes n} : toBytes n b = some v ↔ v.toList = b := by
  unfold toBytes
  split
  · rw [Option.some.injEq]
    constructor
    · rintro rfl
      rfl
    · intro e
      apply Vector.toList_inj.1
      rw [e]
      rfl
  · rename_i h
    simp only [reduceCtorEq, false_iff]
    rintro rfl
    simp at h

@[simp] theorem toBytes_eq_none {n : Nat} {b : List Byte} : toBytes n b = none ↔ b.length ≠ n := by
  unfold toBytes
  split <;> simp_all

@[simp] theorem xorBytes_length (a b : List Byte) : (xorBytes a b).length = min a.length b.length := by
  simp [xorBytes]

theorem u16_lt (lo hi : Byte) : u16 lo hi < 65536 := by
  have := lo.isLt
  have := hi.isLt
  simp only [u16]
  omega

@[simp] theorem le16_length (n : Nat) : (le16 n).length = 2 := rfl

/-- The two bytes of a length field read back as the length. -/
theorem u16_of_le16_bytes {n : Nat} (h : n ≤ maxLength) :
    u16 (BitVec.ofNat 8 n) (BitVec.ofNat 8 (n / 256)) = n := by
  simp only [maxLength] at h
  simp [u16]
  omega

/-- The two bytes of a 16-bit number are its length field. -/
theorem le16_u16 (lo hi : Byte) : le16 (u16 lo hi) = [lo, hi] := by
  have := lo.isLt
  have := hi.isLt
  simp only [le16, u16]
  congr 1
  · apply BitVec.eq_of_toNat_eq
    simp
    omega
  · congr 1
    apply BitVec.eq_of_toNat_eq
    simp
    omega

@[simp] theorem u16At_cons_succ (x : Byte) (b : List Byte) (i : Nat) : u16At (x :: b) (i + 1) = u16At b i := rfl

end Sys2Proof.Machine

namespace Sys2Proof

open Sys2Proof.Machine

theorem chunkDataOk_iff (data : List Byte) :
    chunkDataOk data = true ↔ 1 ≤ data.length ∧ data.length ≤ maxLength := by
  simp [chunkDataOk]

theorem ciphertextOk_iff (ct : List Byte) : ciphertextOk ct = true ↔ ct.length ≤ maxLength := by
  simp [ciphertextOk]

@[simp] theorem decodeAddr_addrByte (a : Addr) : decodeAddr (addrByte a) = .ok a := by
  revert a
  decide

@[simp] theorem decodeControl_controlByte (enc kind : Bool) :
    decodeControl (controlByte enc kind) = .ok (enc, kind) := by
  revert enc kind
  decide

/-- What the address byte can answer: its address, or the reserved-bit condition. -/
theorem decodeAddr_cases (A : Byte) :
    (∃ a, decodeAddr A = .ok a ∧ addrByte a = A) ∨ (decodeAddr A = .error .addressReserved ∧ A.toNat / 32 ≠ 0) := by
  have reserved : A.extractLsb' 5 3 = 0 ↔ A.toNat / 32 = 0 := by
    revert A
    decide
  unfold decodeAddr
  split
  · refine .inl ⟨_, rfl, ?_⟩
    revert A
    decide
  · exact .inr ⟨rfl, fun h => ‹¬_› (reserved.2 h)⟩

/-- What the control byte can answer: its two flags, or the reserved-bit condition. -/
theorem decodeControl_cases (C : Byte) :
    (∃ e k, decodeControl C = .ok (e, k) ∧ controlByte e k = C) ∨
      (decodeControl C = .error .controlReserved ∧ C.toNat / 4 ≠ 0) := by
  have reserved : C.extractLsb' 2 6 = 0 ↔ C.toNat / 4 = 0 := by
    revert C
    decide
  unfold decodeControl
  split
  · refine .inl ⟨_, _, rfl, ?_⟩
    revert C
    decide
  · exact .inr ⟨rfl, fun h => ‹¬_› (reserved.2 h)⟩

@[simp] theorem encodeDecrypt_length (enc kind : Bool) (a : Addr) (seq : Byte) (src dst : Mac) (ct : List Byte) :
    (encodeDecrypt enc kind a seq src dst ct).length = 18 + ct.length := by
  simp [encodeDecrypt]
  omega

/-- The length field of an encoded DECRYPT. -/
theorem encodeDecrypt_u16At (enc kind : Bool) (a : Addr) (seq : Byte) (src dst : Mac) {ct : List Byte}
    (h : ct.length ≤ maxLength) : u16At (encodeDecrypt enc kind a seq src dst ct) 16 = ct.length := by
  have cut : encodeDecrypt enc kind a seq src dst ct =
      ([0x20, addrByte a, controlByte enc kind, seq] ++ src.toList ++ dst.toList) ++ (le16 ct.length ++ ct) := by
    simp [encodeDecrypt]
  have len : ([0x20, addrByte a, controlByte enc kind, seq] ++ src.toList ++ dst.toList).length = 16 := by simp
  have at' (i : Nat) : (encodeDecrypt enc kind a seq src dst ct).getD (16 + i) 0 = (le16 ct.length ++ ct).getD i 0 := by
    rw [cut, List.getD_eq_getElem?_getD, List.getElem?_append_right (by omega), len, Nat.add_sub_cancel_left,
      List.getD_eq_getElem?_getD]
  unfold u16At
  rw [at' 1, ← Nat.add_zero 16, at' 0]
  exact u16_of_le16_bytes h

end Sys2Proof
end

