-- ==== Sys2Proof/Laws/State.lean ====
section
/-! SUPPORT. One lemma per field per update of the state, and the reads of the tables after the writes. -/

namespace Sys2Proof.Machine

/-! ## Updates of S, field by field -/

@[simp] theorem setRb_rb (b : Block) (x : List Byte) : (setRb b x).rb = x := rfl
@[simp] theorem setRb_fault (b : Block) (x : List Byte) : (setRb b x).fault = b.fault := rfl
@[simp] theorem setRb_reg (b : Block) (x : List Byte) : (setRb b x).reg = b.reg := rfl
@[simp] theorem setRb_mctr (b : Block) (x : List Byte) : (setRb b x).mctr = b.mctr := rfl
@[simp] theorem setRb_wkey (b : Block) (x : List Byte) : (setRb b x).wkey = b.wkey := rfl
@[simp] theorem setRb_wctr (b : Block) (x : List Byte) : (setRb b x).wctr = b.wctr := rfl

@[simp] theorem writeReg_rb (b : Block) (a : Addr) (v : Mac) : (writeReg b a v).rb = b.rb := rfl
@[simp] theorem writeReg_fault (b : Block) (a : Addr) (v : Mac) : (writeReg b a v).fault = b.fault := rfl
@[simp] theorem writeReg_reg (b : Block) (a : Addr) (v : Mac) : (writeReg b a v).reg = tableSet b.reg a v := rfl
@[simp] theorem writeReg_mctr (b : Block) (a : Addr) (v : Mac) : (writeReg b a v).mctr = b.mctr := rfl
@[simp] theorem writeReg_wkey (b : Block) (a : Addr) (v : Mac) : (writeReg b a v).wkey = b.wkey := rfl
@[simp] theorem writeReg_wctr (b : Block) (a : Addr) (v : Mac) : (writeReg b a v).wctr = b.wctr := rfl

@[simp] theorem writeMctr_rb (b : Block) (a : Addr) (v : Counter) : (writeMctr b a v).rb = b.rb := rfl
@[simp] theorem writeMctr_fault (b : Block) (a : Addr) (v : Counter) : (writeMctr b a v).fault = b.fault := rfl
@[simp] theorem writeMctr_reg (b : Block) (a : Addr) (v : Counter) : (writeMctr b a v).reg = b.reg := rfl
@[simp] theorem writeMctr_mctr (b : Block) (a : Addr) (v : Counter) :
    (writeMctr b a v).mctr = tableSet b.mctr a v := rfl
@[simp] theorem writeMctr_wkey (b : Block) (a : Addr) (v : Counter) : (writeMctr b a v).wkey = b.wkey := rfl
@[simp] theorem writeMctr_wctr (b : Block) (a : Addr) (v : Counter) : (writeMctr b a v).wctr = b.wctr := rfl

@[simp] theorem writeWkey_rb (b : Block) (a : Addr) (d : Dir) (v : Key) : (writeWkey b a d v).rb = b.rb := rfl
@[simp] theorem writeWkey_fault (b : Block) (a : Addr) (d : Dir) (v : Key) : (writeWkey b a d v).fault = b.fault := rfl
@[simp] theorem writeWkey_reg (b : Block) (a : Addr) (d : Dir) (v : Key) : (writeWkey b a d v).reg = b.reg := rfl
@[simp] theorem writeWkey_mctr (b : Block) (a : Addr) (d : Dir) (v : Key) : (writeWkey b a d v).mctr = b.mctr := rfl
@[simp] theorem writeWkey_wkey (b : Block) (a : Addr) (d : Dir) (v : Key) :
    (writeWkey b a d v).wkey = dirSet b.wkey d (tableSet (dirGet b.wkey d) a v) := rfl
@[simp] theorem writeWkey_wctr (b : Block) (a : Addr) (d : Dir) (v : Key) : (writeWkey b a d v).wctr = b.wctr := rfl

@[simp] theorem writeWctr_rb (b : Block) (a : Addr) (d : Dir) (v : Counter) : (writeWctr b a d v).rb = b.rb := rfl
@[simp] theorem writeWctr_fault (b : Block) (a : Addr) (d : Dir) (v : Counter) :
    (writeWctr b a d v).fault = b.fault := rfl
@[simp] theorem writeWctr_reg (b : Block) (a : Addr) (d : Dir) (v : Counter) : (writeWctr b a d v).reg = b.reg := rfl
@[simp] theorem writeWctr_mctr (b : Block) (a : Addr) (d : Dir) (v : Counter) : (writeWctr b a d v).mctr = b.mctr := rfl
@[simp] theorem writeWctr_wkey (b : Block) (a : Addr) (d : Dir) (v : Counter) : (writeWctr b a d v).wkey = b.wkey := rfl
@[simp] theorem writeWctr_wctr (b : Block) (a : Addr) (d : Dir) (v : Counter) :
    (writeWctr b a d v).wctr = dirSet b.wctr d (tableSet (dirGet b.wctr d) a v) := rfl

@[simp] theorem clearTables_rb (b : Block) : (clearTables b).rb = b.rb := rfl
@[simp] theorem clearTables_fault (b : Block) : (clearTables b).fault = b.fault := rfl
@[simp] theorem clearTables_reg (b : Block) : (clearTables b).reg = emptyTable Mac := rfl
@[simp] theorem clearTables_mctr (b : Block) : (clearTables b).mctr = emptyTable Counter := rfl
@[simp] theorem clearTables_wkey (b : Block) : (clearTables b).wkey = ⟨emptyTable Key, emptyTable Key⟩ := rfl
@[simp] theorem clearTables_wctr (b : Block) : (clearTables b).wctr = ⟨emptyTable Counter, emptyTable Counter⟩ := rfl

/-! ## Directions and reads -/

@[simp] theorem dirGet_dirSet_same {α : Type} (p : PerDir α) (d : Dir) (v : α) : dirGet (dirSet p d v) d = v := by
  cases d <;> rfl

theorem dirGet_dirSet_ne {α : Type} (p : PerDir α) {d d' : Dir} (v : α) (h : d' ≠ d) :
    dirGet (dirSet p d v) d' = dirGet p d' := by
  cases d <;> cases d' <;> simp_all [dirGet, dirSet]

@[simp] theorem dirSet_dirSet {α : Type} (p : PerDir α) (d : Dir) (v w : α) : dirSet (dirSet p d v) d w = dirSet p d w := by
  cases d <;> rfl

@[simp] theorem dirGet_pair {α : Type} (x : α) (d : Dir) : dirGet ⟨x, x⟩ d = x := by cases d <;> rfl

@[simp] theorem tableGet_empty {α : Type} (a : Addr) : tableGet (emptyTable α) a = none := by
  simp [tableGet, emptyTable]

@[simp] theorem tableGet_tableSet_same {α : Type} (t : Table α) (a : Addr) (v : α) :
    tableGet (tableSet t a v) a = some v := by
  simp [tableGet, tableSet]

theorem tableGet_tableSet_ne {α : Type} (t : Table α) {a a' : Addr} (v : α) (h : a' ≠ a) :
    tableGet (tableSet t a v) a' = tableGet t a' :=
  Vector.getElem_set_ne _ _ fun e => h (Fin.ext e.symm)

@[simp] theorem tableSet_tableSet {α : Type} (t : Table α) (a : Addr) (v w : α) :
    tableSet (tableSet t a v) a w = tableSet t a w := by
  simp [tableSet]

@[simp] theorem readReg_writeReg_same (b : Block) (a : Addr) (v : Mac) : readReg (writeReg b a v) a = some v := by
  simp [readReg]

theorem readReg_writeReg_ne (b : Block) {a a' : Addr} (v : Mac) (h : a' ≠ a) :
    readReg (writeReg b a v) a' = readReg b a' := tableGet_tableSet_ne _ _ h

@[simp] theorem readMctr_writeMctr_same (b : Block) (a : Addr) (v : Counter) :
    readMctr (writeMctr b a v) a = some v := by
  simp [readMctr]

theorem readMctr_writeMctr_ne (b : Block) {a a' : Addr} (v : Counter) (h : a' ≠ a) :
    readMctr (writeMctr b a v) a' = readMctr b a' := tableGet_tableSet_ne _ _ h

@[simp] theorem readWkey_writeWkey_same (b : Block) (a : Addr) (d : Dir) (v : Key) :
    readWkey (writeWkey b a d v) a d = some v := by
  simp [readWkey]

theorem readWkey_writeWkey_ne (b : Block) {a a' : Addr} {d d' : Dir} (v : Key) (h : ¬(a' = a ∧ d' = d)) :
    readWkey (writeWkey b a d v) a' d' = readWkey b a' d' := by
  simp only [readWkey, writeWkey_wkey]
  by_cases hd : d' = d
  · subst hd
    rw [dirGet_dirSet_same, tableGet_tableSet_ne _ _ fun e => h ⟨e, rfl⟩]
  · rw [dirGet_dirSet_ne _ _ hd]

@[simp] theorem readWctr_writeWctr_same (b : Block) (a : Addr) (d : Dir) (v : Counter) :
    readWctr (writeWctr b a d v) a d = some v := by
  simp [readWctr]

theorem readWctr_writeWctr_ne (b : Block) {a a' : Addr} {d d' : Dir} (v : Counter) (h : ¬(a' = a ∧ d' = d)) :
    readWctr (writeWctr b a d v) a' d' = readWctr b a' d' := by
  simp only [readWctr, writeWctr_wctr]
  by_cases hd : d' = d
  · subst hd
    rw [dirGet_dirSet_same, tableGet_tableSet_ne _ _ fun e => h ⟨e, rfl⟩]
  · rw [dirGet_dirSet_ne _ _ hd]

@[simp] theorem readReg_setRb (b : Block) (x : List Byte) (a : Addr) : readReg (setRb b x) a = readReg b a := rfl
@[simp] theorem readMctr_setRb (b : Block) (x : List Byte) (a : Addr) : readMctr (setRb b x) a = readMctr b a := rfl
@[simp] theorem readWkey_setRb (b : Block) (x : List Byte) (a : Addr) (d : Dir) :
    readWkey (setRb b x) a d = readWkey b a d := rfl
@[simp] theorem readWctr_setRb (b : Block) (x : List Byte) (a : Addr) (d : Dir) :
    readWctr (setRb b x) a d = readWctr b a d := rfl
@[simp] theorem readMctr_writeReg (b : Block) (a a' : Addr) (v : Mac) : readMctr (writeReg b a v) a' = readMctr b a' := rfl
@[simp] theorem readWkey_writeReg (b : Block) (a a' : Addr) (d : Dir) (v : Mac) :
    readWkey (writeReg b a v) a' d = readWkey b a' d := rfl
@[simp] theorem readWctr_writeReg (b : Block) (a a' : Addr) (d : Dir) (v : Mac) :
    readWctr (writeReg b a v) a' d = readWctr b a' d := rfl
@[simp] theorem readReg_writeMctr (b : Block) (a a' : Addr) (v : Counter) : readReg (writeMctr b a v) a' = readReg b a' := rfl
@[simp] theorem readWkey_writeMctr (b : Block) (a a' : Addr) (d : Dir) (v : Counter) :
    readWkey (writeMctr b a v) a' d = readWkey b a' d := rfl
@[simp] theorem readWctr_writeMctr (b : Block) (a a' : Addr) (d : Dir) (v : Counter) :
    readWctr (writeMctr b a v) a' d = readWctr b a' d := rfl
@[simp] theorem readReg_writeWkey (b : Block) (a a' : Addr) (d : Dir) (v : Key) :
    readReg (writeWkey b a d v) a' = readReg b a' := rfl
@[simp] theorem readMctr_writeWkey (b : Block) (a a' : Addr) (d : Dir) (v : Key) :
    readMctr (writeWkey b a d v) a' = readMctr b a' := rfl
@[simp] theorem readWctr_writeWkey (b : Block) (a a' : Addr) (d d' : Dir) (v : Key) :
    readWctr (writeWkey b a d v) a' d' = readWctr b a' d' := rfl
@[simp] theorem readReg_writeWctr (b : Block) (a a' : Addr) (d : Dir) (v : Counter) :
    readReg (writeWctr b a d v) a' = readReg b a' := rfl
@[simp] theorem readMctr_writeWctr (b : Block) (a a' : Addr) (d : Dir) (v : Counter) :
    readMctr (writeWctr b a d v) a' = readMctr b a' := rfl
@[simp] theorem readWkey_writeWctr (b : Block) (a a' : Addr) (d d' : Dir) (v : Counter) :
    readWkey (writeWctr b a d v) a' d' = readWkey b a' d' := rfl
@[simp] theorem readReg_clearTables (b : Block) (a : Addr) : readReg (clearTables b) a = none := tableGet_empty a
@[simp] theorem readMctr_clearTables (b : Block) (a : Addr) : readMctr (clearTables b) a = none := tableGet_empty a
@[simp] theorem readWkey_clearTables (b : Block) (a : Addr) (d : Dir) : readWkey (clearTables b) a d = none := by
  simp [readWkey]
@[simp] theorem readWctr_clearTables (b : Block) (a : Addr) (d : Dir) : readWctr (clearTables b) a d = none := by
  simp [readWctr]
@[simp] theorem readReg_reset (a : Addr) : readReg Block.reset a = none := tableGet_empty a
@[simp] theorem readMctr_reset (a : Addr) : readMctr Block.reset a = none := tableGet_empty a
@[simp] theorem readWkey_reset (a : Addr) (d : Dir) : readWkey Block.reset a d = none := by
  simp [readWkey, Block.reset]
@[simp] theorem readWctr_reset (a : Addr) (d : Dir) : readWctr Block.reset a d = none := by
  simp [readWctr, Block.reset]

/-! ## Updates of the machine, field by field -/

@[simp] theorem hostSend_block (m : List Byte) (s : State) : (hostSend m s).block = s.block := rfl
@[simp] theorem hostSend_cmdIn (m : List Byte) (s : State) : (hostSend m s).cmdIn = s.cmdIn ++ [m] := rfl
@[simp] theorem hostSend_recOut (m : List Byte) (s : State) : (hostSend m s).recOut = s.recOut := rfl
@[simp] theorem hostSend_dropLine (m : List Byte) (s : State) : (hostSend m s).dropLine = s.dropLine := rfl
@[simp] theorem hostSend_draws (m : List Byte) (s : State) : (hostSend m s).draws = s.draws := rfl
@[simp] theorem placeMessage_cmdIn (m : List Byte) (s : State) : (placeMessage m s).cmdIn = m :: s.cmdIn := rfl
@[simp] theorem placeMessage_fault (m : List Byte) (s : State) : (placeMessage m s).block.fault = false := rfl
@[simp] theorem placeMessage_recOut (m : List Byte) (s : State) : (placeMessage m s).recOut = s.recOut := rfl
@[simp] theorem placeMessage_draws (m : List Byte) (s : State) : (placeMessage m s).draws = s.draws := rfl

end Sys2Proof.Machine
end

