-- ==== Sys2Proof/Laws/Ops.lean ====
section
/-! SUPPORT. What the shared operations can do, said once each: emitting, delivering, and how a command's meaning comes from its
rule. -/

namespace Sys2Proof.Machine

/-- What an emit can do: the record goes to REC_OUT or to the diagnostic line, one draw is taken, nothing else happens. -/
theorem emit_cases (r : Record) (s : State) :
    emit r s = { s with recOut := s.recOut ++ [r], draws := s.draws + 1 } ∨
    emit r s = { s with dropLine := s.dropLine ++ [r], draws := s.draws + 1 } := by
  unfold emit
  split
  · exact .inl rfl
  · exact .inr rfl

@[simp] theorem emit_block (r : Record) (s : State) : (emit r s).block = s.block := by
  obtain h | h := emit_cases r s <;> rw [h]

@[simp] theorem emit_cmdIn (r : Record) (s : State) : (emit r s).cmdIn = s.cmdIn := by
  obtain h | h := emit_cases r s <;> rw [h]

@[simp] theorem emit_draws (r : Record) (s : State) : (emit r s).draws = s.draws + 1 := by
  obtain h | h := emit_cases r s <;> rw [h]

/-- Emitting commutes with replacing the block: no draw looks at S. -/
theorem emit_setBlock (r : Record) (s : State) (b : Block) :
    emit r { s with block := b } = { emit r s with block := b } := by
  unfold emit
  split <;> rfl

/-- Emitting commutes with replacing CMD_IN. -/
theorem emit_setCmdIn (r : Record) (s : State) (q : List (List Byte)) :
    emit r { s with cmdIn := q } = { emit r s with cmdIn := q } := by
  unfold emit
  split <;> rfl

@[simp] theorem emitAll_nil (s : State) : emitAll [] s = s := rfl

@[simp] theorem emitAll_cons (r : Record) (rs : List Record) (s : State) :
    emitAll (r :: rs) s = emitAll rs (emit r s) := rfl

@[simp] theorem emitAll_block (rs : List Record) (s : State) : (emitAll rs s).block = s.block := by
  induction rs generalizing s with
  | nil => rfl
  | cons r rs ih => simp [ih]

@[simp] theorem emitAll_cmdIn (rs : List Record) (s : State) : (emitAll rs s).cmdIn = s.cmdIn := by
  induction rs generalizing s with
  | nil => rfl
  | cons r rs ih => simp [ih]

theorem emitAll_append (rs rs' : List Record) (s : State) : emitAll (rs ++ rs') s = emitAll rs' (emitAll rs s) := by
  induction rs generalizing s with
  | nil => rfl
  | cons r rs ih => simp [ih]

theorem emitAll_setBlock (rs : List Record) (s : State) (b : Block) :
    emitAll rs { s with block := b } = { emitAll rs s with block := b } := by
  induction rs generalizing s with
  | nil => rfl
  | cons r rs ih => rw [emitAll_cons, emit_setBlock, ih, emitAll_cons]

theorem emitAll_setCmdIn (rs : List Record) (s : State) (q : List (List Byte)) :
    emitAll rs { s with cmdIn := q } = { emitAll rs s with cmdIn := q } := by
  induction rs generalizing s with
  | nil => rfl
  | cons r rs ih => rw [emitAll_cons, emit_setCmdIn, ih, emitAll_cons]

/-- Emitting looks at neither S nor CMD_IN, so both may be replaced before or after it. -/
theorem emitAll_setBlock_setCmdIn (rs : List Record) (s : State) (b : Block) (q : List (List Byte)) :
    emitAll rs { s with block := b, cmdIn := q } = { emitAll rs s with block := b, cmdIn := q } := by
  rw [emitAll_setCmdIn rs { s with block := b } q, emitAll_setBlock]

/-- What delivering an answer can give as a next state. -/
theorem commit_eq_next {e : Effect} {s t : State} :
    commit e s = .next t ↔ ∃ b rs, e = .done b rs ∧ t = emitAll rs { s with block := b } := by
  cases e <;> simp [commit, eq_comm]

@[simp] theorem commit_done (b : Block) (rs : List Record) (s : State) :
    commit (.done b rs) s = .next (emitAll rs { s with block := b }) := rfl

@[simp] theorem commit_raise (oc : OutcomeCode) (st : Byte) (s : State) :
    commit (raise oc st s.block) s = .next (emit (.result oc st []) s) := rfl

/-- The meaning of every command is its rule under CFG, delivered. -/
theorem exec_eq_commit (i : Instr) (s : State) : exec i s = commit (ruleOf Config.cfg i s.block) s := by
  cases i <;> rfl

/-- What taking a message does is its rule under CFG, delivered. -/
theorem takeMessage_eq_commit (m : List Byte) (s : State) :
    takeMessage m s = commit (messageRule Config.cfg m s.block) s := by
  unfold takeMessage messageRule
  cases decode m with
  | error e => rfl
  | ok i => exact exec_eq_commit i s

end Sys2Proof.Machine
end

