-- ==== Sys2Proof/Laws/Engine.lean ====
section
/-! SUPPORT. What each function of the reassembler and the key engine, and each command's rule, can answer, said once. -/

namespace Sys2Proof.Machine

/-! ## The reassembler -/

theorem overCap_eq_false {cap : Option ℕ+} {n : Nat} : overCap cap n = false ↔ ∀ c, cap = some c → n ≤ c := by
  cases cap <;> simp [overCap]

theorem overCap_eq_true {cap : Option ℕ+} {n : Nat} : overCap cap n = true ↔ ∃ c, cap = some c ∧ (c : Nat) < n := by
  cases cap <;> simp [overCap]

/-- CARVE cuts RB in two. -/
theorem carve_append {off : Nat} {rb f rest : List Byte} (h : carve off rb = some (f, rest)) : f ++ rest = rb := by
  obtain ⟨j, -, e⟩ := Option.map_eq_some_iff.1 h
  cases e
  exact List.take_append_drop j rb

/-- What CHUNK's rule can answer. -/
theorem chunkRule_cases (c : Config) (data : List Byte) (b : Block) :
    (overCap c.rawbufCap (b.rb.length + data.length) = true ∧
      chunkRule c data b = .overflow { b with fault := true }) ∨
    (overCap c.rawbufCap (b.rb.length + data.length) = false ∧
      chunkRule c data b = .done (setRb b (carveAll c.searchOffset (b.rb ++ data)).2)
        ((carveAll c.searchOffset (b.rb ++ data)).1.map fun f => .frame (unescape f))) := by
  unfold chunkRule
  split
  · exact .inl ⟨‹_›, rfl⟩
  · exact .inr ⟨Bool.eq_false_iff.2 ‹_›, rfl⟩

/-! ## The key engine -/

/-- The direction test looks at one registry entry only. -/
theorem dirTest_congr {b b' : Block} {a : Addr} (src dst : Mac) (h : readReg b a = readReg b' a) :
    dirTest b a src dst = dirTest b' a src dst := by
  unfold dirTest
  rw [h]

/-- What the direction test can answer: no direction and NO_DIR, or a direction and its DIR bit. -/
theorem dirTest_cases (b : Block) (a : Addr) (src dst : Mac) :
    dirTest b a src dst = (none, stNoDir) ∨ ∃ d, dirTest b a src dst = (some d, stDir d) := by
  unfold dirTest
  split
  · exact .inl rfl
  split
  · exact .inr ⟨_, rfl⟩
  split
  · exact .inr ⟨_, rfl⟩
  · exact .inl rfl

/-- The status bits resynchronisation can answer. -/
theorem resync_status (high : ResyncHigh) (ctr : Counter) (seq : Byte) :
    (resync high ctr seq).2 = 0x00 ∨ (resync high ctr seq).2 = stCtrInc ∨ (resync high ctr seq).2 = stCtrForced := by
  unfold resync
  split
  · exact .inl rfl
  split
  · exact .inr (.inl rfl)
  · exact .inr (.inr rfl)

theorem tailRefused_eq_false {mode : TailMode} {n : Nat} :
    tailRefused mode n = false ↔ (mode = .refuse → n % 16 = 0) := by
  cases mode <;> simp [tailRefused]

theorem tailRefused_eq_true {mode : TailMode} {n : Nat} :
    tailRefused mode n = true ↔ mode = .refuse ∧ n % 16 ≠ 0 := by
  cases mode <;> simp [tailRefused]

/-- What key installation can do: nothing, with SHORT_PT or no bit, or one key and one counter written for the direction. -/
theorem install_cases (b : Block) (a : Addr) (dir : Option Dir) (p : List Byte) :
    (p.length < 20 ∧ install b a dir p = (b, stShortPt)) ∨
    (20 ≤ p.length ∧ dir = none ∧ install b a dir p = (b, 0x00)) ∨
    ∃ d k c, 20 ≤ p.length ∧ dir = some d ∧ k.toList = p.drop (p.length - 16) ∧
      c.toList = (p.drop (p.length - 20)).take 4 ∧
      install b a dir p = (writeWctr (writeWkey b a d k) a d c, stKeyInstalled) := by
  unfold install
  by_cases h : 20 ≤ p.length
  · rw [dif_pos h]
    cases dir with
    | none => exact .inr (.inl ⟨h, rfl, rfl⟩)
    | some d =>
      refine .inr (.inr ⟨d, _, _, h, rfl, ?_, ?_, rfl⟩)
      · rw [sliceBytes_toList, List.take_of_length_le]
        simp
        omega
      · rw [sliceBytes_toList]
  · rw [dif_neg h]
    exact .inl ⟨by omega, rfl⟩

@[simp] theorem install_rb (b : Block) (a : Addr) (dir : Option Dir) (p : List Byte) : (install b a dir p).1.rb = b.rb := by
  obtain ⟨-, h⟩ | ⟨-, -, h⟩ | ⟨_, _, _, -, -, -, -, h⟩ := install_cases b a dir p <;> simp [h]

@[simp] theorem install_fault (b : Block) (a : Addr) (dir : Option Dir) (p : List Byte) :
    (install b a dir p).1.fault = b.fault := by
  obtain ⟨-, h⟩ | ⟨-, -, h⟩ | ⟨_, _, _, -, -, -, -, h⟩ := install_cases b a dir p <;> simp [h]

@[simp] theorem install_reg (b : Block) (a : Addr) (dir : Option Dir) (p : List Byte) :
    (install b a dir p).1.reg = b.reg := by
  obtain ⟨-, h⟩ | ⟨-, -, h⟩ | ⟨_, _, _, -, -, -, -, h⟩ := install_cases b a dir p <;> simp [h]

@[simp] theorem install_mctr (b : Block) (a : Addr) (dir : Option Dir) (p : List Byte) :
    (install b a dir p).1.mctr = b.mctr := by
  obtain ⟨-, h⟩ | ⟨-, -, h⟩ | ⟨_, _, _, -, -, -, -, h⟩ := install_cases b a dir p <;> simp [h]

/-- What DECRYPT.MASTER's rule can answer. -/
theorem decryptMasterRule_cases (c : Config) (a : Addr) (seq : Byte) (src dst : Mac) (ct : List Byte) (b : Block) :
    (readMctr b a = none ∧
      decryptMasterRule c a seq src dst ct b = raise .missingMasterCounter (dirTest b a src dst).2 b) ∨
    ∃ ctr, readMctr b a = some ctr ∧
      ((tailRefused c.tailMode ct.length = true ∧ decryptMasterRule c a seq src dst ct b = .refusedTail) ∨
      (tailRefused c.tailMode ct.length = false ∧
        ∀ d r p k, d = dirTest b a src dst → r = resync c.resyncHigh ctr seq →
          p = chain c.encrypt c.masterKey (ivOf src dst r.1) ct → k = install (writeMctr b a r.1) a d.1 p →
          decryptMasterRule c a seq src dst ct b = .done k.1 [.result .decoded (d.2 ||| r.2 ||| k.2) p])) := by
  unfold decryptMasterRule
  cases h : readMctr b a with
  | none => exact .inl ⟨rfl, rfl⟩
  | some ctr =>
    refine .inr ⟨ctr, rfl, ?_⟩
    cases ht : tailRefused c.tailMode ct.length with
    | true => exact .inl ⟨rfl, rfl⟩
    | false =>
      refine .inr ⟨rfl, ?_⟩
      rintro d r p k rfl rfl rfl rfl
      rfl

/-- What DECRYPT.WORK's rule can answer. -/
theorem decryptWorkRule_cases (c : Config) (a : Addr) (seq : Byte) (src dst : Mac) (ct : List Byte) (b : Block) :
    ((∀ dir, (dirTest b a src dst).1 = some dir → readWkey b a dir = none) ∧
      decryptWorkRule c a seq src dst ct b = raise .missingWorkKey (dirTest b a src dst).2 b) ∨
    ∃ dir key, (dirTest b a src dst).1 = some dir ∧ readWkey b a dir = some key ∧
      ((readWctr b a dir = none ∧ decryptWorkRule c a seq src dst ct b = .counterMissing) ∨
      ∃ ctr, readWctr b a dir = some ctr ∧
        ((tailRefused c.tailMode ct.length = true ∧ decryptWorkRule c a seq src dst ct b = .refusedTail) ∨
        (tailRefused c.tailMode ct.length = false ∧
          ∀ r, r = resync c.resyncHigh ctr seq →
            decryptWorkRule c a seq src dst ct b = .done (writeWctr b a dir (inc32 r.1))
              [.result .decoded ((dirTest b a src dst).2 ||| r.2) (chain c.encrypt key (ivOf src dst r.1) ct)]))) := by
  cases hd : (dirTest b a src dst).1 with
  | none => exact .inl ⟨by simp, by simp [decryptWorkRule, hd]⟩
  | some dir =>
    cases hk : readWkey b a dir with
    | none =>
      refine .inl ⟨?_, by simp [decryptWorkRule, hd, hk]⟩
      intro d e
      cases e
      exact hk
    | some key =>
      refine .inr ⟨dir, key, rfl, hk, ?_⟩
      cases hc : readWctr b a dir with
      | none => exact .inl ⟨rfl, by simp [decryptWorkRule, hd, hk, hc]⟩
      | some ctr =>
        refine .inr ⟨ctr, rfl, ?_⟩
        cases ht : tailRefused c.tailMode ct.length with
        | true => exact .inl ⟨rfl, by simp [decryptWorkRule, hd, hk, hc, ht]⟩
        | false =>
          refine .inr ⟨rfl, ?_⟩
          rintro r rfl
          simp [decryptWorkRule, hd, hk, hc, ht]

/-! ## The cipher -/

/-- A ciphertext block, without the bound of the text. -/
theorem cipherBlock_eq (ct : List Byte) (i : Nat) : cipherBlock ct i = (ct.drop (16 * i)).take 16 := by
  simp only [cipherBlock, slice]
  by_cases h : 16 * i + 16 ≤ ct.length
  · rw [Nat.min_eq_left h]
    congr 1
    omega
  · rw [Nat.min_eq_right (by omega), List.take_of_length_le (by simp), List.take_of_length_le (by simp; omega)]

theorem cipherBlock_length (ct : List Byte) (i : Nat) : (cipherBlock ct i).length = min 16 (ct.length - 16 * i) := by
  simp [cipherBlock_eq]

@[simp] theorem keystream_zero (E : Key → CipherBlock → CipherBlock) (k : Key) (iv : CipherBlock) (ct : List Byte) :
    keystream E k iv ct 0 = some (E k iv) := rfl

/-- A keystream block after a full ciphertext block. -/
theorem keystream_succ (E : Key → CipherBlock → CipherBlock) (k : Key) (iv : CipherBlock) (ct : List Byte) (i : Nat)
    (x : CipherBlock) (h : x.toList = cipherBlock ct i) : keystream E k iv ct (i + 1) = some (E k x) := by
  simp only [keystream, toBytes_eq_some.2 h, Option.map_some]

end Sys2Proof.Machine
end

