-- ==== Sys2Proof/Laws/PerInstr.lean ====
section
/-! SUPPORT. Statements made command by command. -/

namespace Sys2Proof.Laws.EncodedLength

open Sys2Proof.Machine

/-- The message of a well-formed command has the length that 30_encoding.md R93 finds from its first bytes. -/
def Statement (i : Instr) : Prop := i.wellFormed = true → expectedLength (encode i) = some (encode i).length

theorem chunk (data : List Byte) : Statement (.chunk data) := by
  intro h
  have hd := (chunkDataOk_iff data).1 h
  have hu : u16At (encode (.chunk data)) 1 = data.length := u16_of_le16_bytes hd.2
  have hl : (encode (.chunk data)).length = 3 + data.length := by
    simp [encode]
    omega
  have e : expectedLength (encode (.chunk data)) = some (3 + u16At (encode (.chunk data)) 1) :=
    if_pos (e := none) (show 3 ≤ (encode (.chunk data)).length by omega)
  rw [e, hl, hu]

theorem stop : Statement .stop := fun _ => rfl

theorem regWrite (a : Addr) (mac : Mac) : Statement (.regWrite a mac) := by
  intro _
  simp [expectedLength, encode]

theorem setMctr (a : Addr) (ctr : Counter) : Statement (.setMctr a ctr) := by
  intro _
  simp [expectedLength, encode]

/-- The three DECRYPT forms share their layout. -/
theorem ofDecrypt (enc kind : Bool) (a : Addr) (seq : Byte) (src dst : Mac) {ct : List Byte}
    (h : ct.length ≤ maxLength) :
    expectedLength (encodeDecrypt enc kind a seq src dst ct) =
      some (encodeDecrypt enc kind a seq src dst ct).length := by
  have e : expectedLength (encodeDecrypt enc kind a seq src dst ct) =
      some (18 + u16At (encodeDecrypt enc kind a seq src dst ct) 16) :=
    if_pos (e := none) (show 18 ≤ (encodeDecrypt enc kind a seq src dst ct).length by simp)
  rw [e, encodeDecrypt_length, encodeDecrypt_u16At enc kind a seq src dst h]

theorem decryptPlain (a : Addr) (kind : Bool) (seq : Byte) (src dst : Mac) (ct : List Byte) :
    Statement (.decryptPlain a kind seq src dst ct) :=
  fun h => ofDecrypt _ _ _ _ _ _ ((ciphertextOk_iff ct).1 h)

theorem decryptMaster (a : Addr) (seq : Byte) (src dst : Mac) (ct : List Byte) :
    Statement (.decryptMaster a seq src dst ct) :=
  fun h => ofDecrypt _ _ _ _ _ _ ((ciphertextOk_iff ct).1 h)

theorem decryptWork (a : Addr) (seq : Byte) (src dst : Mac) (ct : List Byte) :
    Statement (.decryptWork a seq src dst ct) :=
  fun h => ofDecrypt _ _ _ _ _ _ ((ciphertextOk_iff ct).1 h)

end Sys2Proof.Laws.EncodedLength
end

