-- ==== Sys2Proof/Laws/Run.lean ====
section
/-! SUPPORT. Runs of the machine: the steps one by one, and the host's own run. -/

namespace Sys2Proof.Machine

@[simp] theorem runSteps_zero (s : State) : runSteps 0 s = .next s := rfl

theorem runSteps_succ_next {s t : State} (n : Nat) (h : step s = .next t) : runSteps (n + 1) s = runSteps n t := by
  simp [runSteps, h]

/-- The host's run of this machine is `runSteps`. -/
theorem runSteps_eq_core_run (n : Nat) (s : State) : Host.Core.run Sys2Proof.core n s = runSteps n s := by
  induction n generalizing s with
  | zero => rfl
  | succ n ih =>
    cases h : step s with
    | next t =>
      have hc : Sys2Proof.core.step s = .next t := h
      simp only [Host.Core.run, hc, runSteps, h]
      exact ih t
    | fault r =>
      have hc : Sys2Proof.core.step s = .fault r := h
      simp only [Host.Core.run, hc, runSteps, h]
      rfl
    | refused r =>
      have hc : Sys2Proof.core.step s = .refused r := h
      simp only [Host.Core.run, hc, runSteps, h]
      rfl

/-- With FAULT clear and a message waiting, a step is the message's rule under CFG, delivered. -/
theorem step_eq_commit {s : State} {m : List Byte} {rest : List (List Byte)} (hf : s.block.fault = false)
    (hq : s.cmdIn = m :: rest) : step s = commit (messageRule Config.cfg m s.block) { s with cmdIn := rest } := by
  simp only [step, controllerStep, hf, hq]
  rw [if_neg (by simp), takeMessage_eq_commit]

end Sys2Proof.Machine
end

