-- ==== Sys2Proof/Tests/Slice0.lean ====
section
/-! SUPPORT. Tests on fixed values, the expected results taken from spec/95_test_vectors.md or written out by hand from the
rule named; then one witness for each statement with hypotheses. -/

namespace Sys2Proof.Tests

open Sys2Proof.Machine Sys2Proof.Said

/-! ## What the tests share -/

/-- The toy cipher of 95_test_vectors.md: `Etoy(k, x) = x ⊕ k`. -/
def toyE (k : Key) (x : CipherBlock) : CipherBlock := ⟨(List.zipWith (· ^^^ ·) x.toList k.toList).toArray, by simp⟩

/-- `n` bytes that count up from `x`, written `x x+1 ..` in 95_test_vectors.md. -/
def upFrom (x n : Nat) : List Byte := (List.range n).map fun i => BitVec.ofNat 8 (x + i)

/-- Sixteen bytes that count up from `x`. -/
def blockFrom (x : Nat) : Bytes 16 := ⟨(upFrom x 16).toArray, by simp [upFrom]⟩

/-- The key `00 01 .. 0F` of 95_test_vectors.md. -/
def toyKey : Key := blockFrom 0x00

/-- The default CFG with the toy cipher and RETAIN_ON_STOP = false. -/
def toy : Config := Config.withDefaults toyE toyKey false

/-- M of 95_test_vectors.md. -/
def macM : Mac := #v[0x11, 0x12, 0x13, 0x14, 0x15, 0x16]

/-- D of 95_test_vectors.md. -/
def macD : Mac := #v[0xA1, 0xA2, 0xA3, 0xA4, 0xA5, 0xA6]

/-- D3 of 95_test_vectors.md. -/
def macD3 : Mac := #v[0xC1, 0xC2, 0xC3, 0xC4, 0xC5, 0xC6]

/-- The work key `B0 B1 .. BF` of program P2. -/
def keyB : Key := blockFrom 0xB0

/-- A block with RB as given and nothing in the tables. -/
def withRb (rb : List Byte) : Block := setRb Block.reset rb

/-- A block that knows D at address 2 and a master counter there. -/
def master2 (ctr : Counter) : Block := writeMctr (writeReg Block.reset 2 macD) 2 ctr

/-- A block that knows D at address 2 and a work key and counter for its direction IN. -/
def work2 (ctr : Counter) : Block := writeWctr (writeWkey (writeReg Block.reset 2 macD) 2 .inn keyB) 2 .inn ctr

/-- A machine around a block, with messages waiting. -/
def machine (b : Block) (q : List (List Byte)) : State := { State.reset with block := b, cmdIn := q }

/-- The records of an answer. -/
def recordsOf : Effect → List Record
  | .done _ rs => rs
  | .overflow _ => []
  | .refusedTail => []
  | .counterMissing => []

/-- The block of an answer, as far as it has one. -/
def blockOf : Effect → Option Block
  | .done b _ => some b
  | .overflow b => some b
  | .refusedTail => none
  | .counterMissing => none

/-- A DECRYPT message with source MAC M and the rest as given. -/
def decMessage (A C S : Byte) (tail : List Byte) : List Byte :=
  [0x20, A, C, S, 0x11, 0x12, 0x13, 0x14, 0x15, 0x16, 0xA1, 0xA2, 0xA3, 0xA4, 0xA5, 0xA6] ++ tail

/-- `n` zero bytes. -/
def zeros (n : Nat) : List Byte := List.replicate n 0x00

@[simp] theorem zeros_length (n : Nat) : (zeros n).length = n := List.length_replicate

/-! ## Well-formedness: an ill-formed command for each check -/

theorem test_empty_chunk_is_ill_formed : (Instr.chunk []).wellFormed = false := by decide

theorem test_chunk_of_65536_is_ill_formed : (Instr.chunk (zeros 65536)).wellFormed = false := by
  simp [Instr.wellFormed, chunkDataOk, maxLength]

theorem test_plain_ciphertext_of_65536_is_ill_formed :
    (Instr.decryptPlain 0 false 0x00 macM macD (zeros 65536)).wellFormed = false := by
  simp [Instr.wellFormed, ciphertextOk, maxLength]

theorem test_master_ciphertext_of_65536_is_ill_formed :
    (Instr.decryptMaster 0 0x00 macM macD (zeros 65536)).wellFormed = false := by
  simp [Instr.wellFormed, ciphertextOk, maxLength]

theorem test_work_ciphertext_of_65536_is_ill_formed :
    (Instr.decryptWork 0 0x00 macM macD (zeros 65536)).wellFormed = false := by
  simp [Instr.wellFormed, ciphertextOk, maxLength]

theorem test_longest_chunk_is_well_formed : (Instr.chunk (zeros 65535)).wellFormed = true := by
  simp [Instr.wellFormed, chunkDataOk, maxLength]

/-! ## Decoding: every row of 95_test_vectors.md, "Encoding" -/

theorem test_decode_chunk : decode [0x01, 0x02, 0x00, 0xFF, 0x01] = .ok (.chunk [0xFF, 0x01]) := by decide

theorem test_decode_stop : decode [0x02] = .ok .stop := by decide

theorem test_decode_regWrite :
    decode [0x10, 0x02, 0xA1, 0xA2, 0xA3, 0xA4, 0xA5, 0xA6] = .ok (.regWrite 2 macD) := by decide

theorem test_decode_setMctr :
    decode [0x11, 0x02, 0x01, 0x00, 0x00, 0x00] = .ok (.setMctr 2 #v[0x01, 0x00, 0x00, 0x00]) := by decide

theorem test_decode_decryptPlain :
    decode [0x20, 0x03, 0x00, 0x09, 0x11, 0x12, 0x13, 0x14, 0x15, 0x16, 0xC1, 0xC2, 0xC3, 0xC4, 0xC5, 0xC6, 0x02, 0x00,
      0x33, 0x44] = .ok (.decryptPlain 3 false 0x09 macM macD3 [0x33, 0x44]) := by decide

theorem test_decode_decryptMaster :
    decode [0x20, 0x02, 0x01, 0x02, 0x11, 0x12, 0x13, 0x14, 0x15, 0x16, 0xA1, 0xA2, 0xA3, 0xA4, 0xA5, 0xA6, 0x00, 0x00] =
      .ok (.decryptMaster 2 0x02 macM macD []) := by decide

theorem test_decode_decryptWork :
    decode [0x20, 0x1F, 0x03, 0xFF, 0x11, 0x12, 0x13, 0x14, 0x15, 0x16, 0xA1, 0xA2, 0xA3, 0xA4, 0xA5, 0xA6, 0x01, 0x00,
      0x00] = .ok (.decryptWork 31 0xFF macM macD [0x00]) := by decide

/-- KIND is ignored when ENC = 0: not illegal. -/
theorem test_decode_plain_with_kind :
    decode (decMessage 0x03 0x02 0x06 [0x00, 0x00]) = .ok (.decryptPlain 3 true 0x06 macM macD []) := by decide

/-- The illegal messages of 95_test_vectors.md, each under its condition of 30_encoding.md R80. -/
theorem test_illegal_messages :
    decode [] = .error .emptyMessage ∧ decode [0xFF] = .error .unknownOpcode ∧ decode [0x03] = .error .unknownOpcode ∧
    decode [0x01, 0x00, 0x00] = .error .chunkLength ∧ decode [0x01, 0x02, 0x00, 0xFF] = .error .chunkLength ∧
    decode [0x02, 0x00] = .error .stopLength ∧
    decode [0x10, 0x02, 0xA1, 0xA2, 0xA3, 0xA4, 0xA5] = .error .regWriteLength ∧
    decode [0x11, 0x02, 0x01, 0x00, 0x00, 0x00, 0x00] = .error .setMctrLength ∧
    decode (decMessage 0x03 0x01 0x06 []) = .error .decryptLength ∧
    decode (decMessage 0x03 0x01 0x06 [0x01, 0x00]) = .error .decryptLength ∧
    decode [0x10, 0x22, 0xA1, 0xA2, 0xA3, 0xA4, 0xA5, 0xA6] = .error .addressReserved ∧
    decode (decMessage 0x23 0x01 0x06 [0x00, 0x00]) = .error .addressReserved ∧
    decode (decMessage 0x03 0x05 0x06 [0x00, 0x00]) = .error .controlReserved := by decide

/-- The table word of DECRYPT.WORK, `20 00 03` and zeros. -/
theorem test_table_word_of_work :
    decodeTableWord 24 0x030020 =
      some (.decryptWork 0 0x00 (Vector.replicate 6 0x00) (Vector.replicate 6 0x00) []) := by decide

/-- The table word of CHUNK has L = 0, which 30_encoding.md R80 makes illegal. -/
theorem test_table_word_of_chunk_is_illegal : decodeTableWord 8 0x01 = none := by decide

theorem test_withFetchWord_places_the_message : (State.reset.withFetchWord 8 0x02).cmdIn = [[0x02]] := by decide

/-! ## Records and the assembler -/

/-- Program P1, row 1, and program P2, row 6. -/
theorem test_record_bytes :
    recordBytes (.frame [0xFF, 0x01, 0x1F, 0x6C, 0x6F, 0x6C]) =
      [0x80, 0x06, 0x00, 0x00, 0x00, 0xFF, 0x01, 0x1F, 0x6C, 0x6F, 0x6C] ∧
    recordBytes (.result .missingWorkKey 0x08 []) = [0xA0, 0x03, 0x08, 0x00, 0x00] := by decide

theorem test_assemble_regw :
    assemble "regw 2, A1A2A3A4A5A6" = some [[0x10, 0x02, 0xA1, 0xA2, 0xA3, 0xA4, 0xA5, 0xA6]] := by decide

theorem test_assemble_dec_work :
    assemble "dec.work 31, 0xFF, 111213141516, A1A2A3A4A5A6, 00" =
      some [[0x20, 0x1F, 0x03, 0xFF, 0x11, 0x12, 0x13, 0x14, 0x15, 0x16, 0xA1, 0xA2, 0xA3, 0xA4, 0xA5, 0xA6, 0x01, 0x00,
        0x00]] := by decide

/-- 30_encoding.md R91 refuses an address above 31 and an empty chunk; `feed -` expands to nothing (R92). -/
theorem test_assemble_refusals :
    assemble "regw 32, A1A2A3A4A5A6" = none ∧ assemble "chunk -" = none ∧ assemble "feed -" = some [] := by decide

/-- The model's own choices of log entry 17. -/
theorem test_assemble_choices :
    assemble "setmc 02,  0a0B0000" = some [[0x11, 0x02, 0x0A, 0x0B, 0x00, 0x00]] ∧ assemble " stop" = none := by decide

/-! ## The reassembler (95_test_vectors.md, "Escape removal" and "Carving") -/

theorem test_unescape :
    unescape [0xFE, 0x01, 0xFE, 0x02] = [0xFF, 0xFE] ∧ unescape [0xFE, 0xFE, 0x01] = [0xFE, 0xFF] ∧
    unescape [0xFE, 0x03] = [0xFE, 0x03] ∧ unescape [0xFE] = [0xFE] ∧ unescape [0xFE, 0x01, 0x02] = [0xFF, 0x02] ∧
    unescape [0xFE, 0x02, 0x01] = [0xFE, 0x01] ∧ unescape [0xFE, 0xFE, 0x02] = [0xFE, 0xFE] ∧
    unescape [0xFF, 0x01, 0xFE] = [0xFF, 0x01, 0xFE] := by decide

theorem test_carve_offset_two :
    carveAll 2 [0xFF, 0xFF, 0x00, 0xFF] = ([[0xFF, 0xFF, 0x00]], [0xFF]) ∧
    carveAll 2 [0xFF, 0xFF] = ([], [0xFF, 0xFF]) ∧
    carveAll 2 [0xFF, 0x00, 0xFF, 0xFF] = ([[0xFF, 0x00]], [0xFF, 0xFF]) ∧
    carveAll 2 [0x00, 0xFF, 0x01, 0xFF, 0x02] = ([[0x00, 0xFF, 0x01]], [0xFF, 0x02]) := by decide

theorem test_carve_offset_one :
    carveAll 1 [0xFF, 0xFF, 0x00, 0xFF] = ([[0xFF], [0xFF, 0x00]], [0xFF]) ∧
    carveAll 1 [0xFF, 0x00, 0xFF, 0xFF] = ([[0xFF, 0x00], [0xFF]], [0xFF]) := by decide

/-- Program P1, row 2: two frames end in the chunk's two markers only where the search offset allows it. -/
theorem test_chunk :
    ruleOf toy (.chunk [0x33, 0xFF, 0xFF]) (withRb [0xFF, 0x05, 0xFE, 0x01, 0xFE, 0x02]) =
      .done (withRb [0xFF, 0xFF]) [.frame [0xFF, 0x05, 0xFF, 0xFE, 0x33]] := by decide

/-- The capacity vector, and the same capacity met exactly. -/
theorem test_chunk_at_the_capacity :
    ruleOf { toy with rawbufCap := some 4 } (.chunk [0x02, 0x03, 0x04]) (withRb [0xFF, 0x01]) =
      .overflow { withRb [0xFF, 0x01] with fault := true } ∧
    ruleOf { toy with rawbufCap := some 4 } (.chunk [0x02, 0x03]) (withRb [0xFF, 0x01]) =
      .done (withRb [0xFF, 0x01, 0x02, 0x03]) [] := by decide

/-! ## STOP, REG_WRITE, SET_MCTR -/

/-- 95_test_vectors.md, "STOP". -/
theorem test_stop :
    ruleOf toy .stop (writeMctr (withRb [0xFF, 0x03, 0xFE]) 3 #v[0x06, 0x01, 0x00, 0x00]) = .done Block.reset [] ∧
    ruleOf { toy with retainOnStop := true } .stop (writeMctr (withRb [0xFF, 0x03, 0xFE]) 3 #v[0x06, 0x01, 0x00, 0x00]) =
      .done (writeMctr Block.reset 3 #v[0x06, 0x01, 0x00, 0x00]) [] := by decide

/-- The last write wins and the keys stay (10_state.md R25). -/
theorem test_regWrite :
    (blockOf (ruleOf toy (.regWrite 2 macD3) (work2 #v[0x05, 0x00, 0x00, 0x00]))).map
        (fun b => (readReg b 2, readReg b 3, readWkey b 2 .inn)) = some (some macD3, none, some keyB) := by decide

theorem test_setMctr :
    (blockOf (ruleOf toy (.setMctr 31 #v[0x01, 0x02, 0x03, 0x04]) Block.reset)).map
        (fun b => (readMctr b 31, readMctr b 0)) = some (some #v[0x01, 0x02, 0x03, 0x04], none) := by decide

/-! ## The key engine (95_test_vectors.md, "Counter arithmetic" to "Key installation") -/

theorem test_inc32 :
    inc32 #v[0xFF, 0x00, 0x00, 0x00] = #v[0x00, 0x01, 0x00, 0x00] ∧
    inc32 #v[0xFF, 0xFF, 0xFF, 0x7F] = #v[0x00, 0x00, 0x00, 0x80] ∧
    inc32 #v[0xFF, 0xFF, 0xFF, 0xFF] = #v[0x00, 0x00, 0x00, 0x00] := by decide

theorem test_resync :
    resync .incremented #v[0x12, 0x34, 0x56, 0x78] 0x12 = (#v[0x12, 0x34, 0x56, 0x78], 0x00) ∧
    resync .incremented #v[0xFF, 0x00, 0x00, 0x00] 0x00 = (#v[0x00, 0x01, 0x00, 0x00], 0x01) ∧
    resync .incremented #v[0xFF, 0x00, 0x00, 0x00] 0x05 = (#v[0x05, 0x01, 0x00, 0x00], 0x02) ∧
    resync .original #v[0xFF, 0x00, 0x00, 0x00] 0x05 = (#v[0x05, 0x00, 0x00, 0x00], 0x02) ∧
    resync .original #v[0xFF, 0xFF, 0xFF, 0xFF] 0x07 = (#v[0x07, 0xFF, 0xFF, 0xFF], 0x02) := by decide

theorem test_dirTest :
    dirTest (master2 #v[0x01, 0x00, 0x00, 0x00]) 2 macM macD = (some .inn, 0x00) ∧
    dirTest (master2 #v[0x01, 0x00, 0x00, 0x00]) 2 macD macM = (some .out, 0x08) ∧
    dirTest (master2 #v[0x01, 0x00, 0x00, 0x00]) 2 macD macD = (some .out, 0x08) ∧
    dirTest (master2 #v[0x01, 0x00, 0x00, 0x00]) 2 macM macD3 = (none, 0x10) ∧
    dirTest Block.reset 2 macM macD = (none, 0x10) := by decide

/-- One partial block, and a partial tail after a full block, under the toy cipher with `iv = 10 11 .. 1F`. -/
theorem test_chain :
    chain toyE toyKey (blockFrom 0x10) (upFrom 0x40 5) = upFrom 0x50 5 ∧
    chain toyE toyKey (blockFrom 0x10) (upFrom 0x40 18) = upFrom 0x50 16 ++ upFrom 0x10 2 := by decide

/-- 22, 20, 19 bytes, and no direction. -/
theorem test_install :
    (install Block.reset 2 (some .inn) ([0x33, 0x44, 0x05, 0x00, 0x00, 0x00] ++ keyB.toList)).1 =
      writeWctr (writeWkey Block.reset 2 .inn keyB) 2 .inn #v[0x05, 0x00, 0x00, 0x00] ∧
    (install Block.reset 2 (some .out) ([0x05, 0x06, 0x07, 0x08] ++ keyB.toList)).1 =
      writeWctr (writeWkey Block.reset 2 .out keyB) 2 .out #v[0x05, 0x06, 0x07, 0x08] ∧
    install Block.reset 2 (some .out) ([0x06, 0x07, 0x08] ++ keyB.toList) = (Block.reset, 0x20) ∧
    install Block.reset 2 none ([0x33, 0x44, 0x05, 0x00, 0x00, 0x00] ++ keyB.toList) = (Block.reset, 0x00) := by decide

/-! ## DECRYPT (95_test_vectors.md, programs P2 and P3) -/

theorem test_decryptPlain :
    ruleOf toy (.decryptPlain 3 false 0x09 macM macD3 [0x33, 0x44]) (work2 #v[0x05, 0x00, 0x00, 0x00]) =
      .done (work2 #v[0x05, 0x00, 0x00, 0x00]) [.result .notEncrypted 0x00 []] := by decide

/-- P2, step 3: the record, the stored counter, and the key and counter installed. -/
theorem test_decryptMaster :
    ruleOf toy (.decryptMaster 2 0x02 macM macD [0x22, 0x57, 0x14, 0x17, 0x11, 0x13, 0x17, 0x14, 0x19, 0x1E, 0x1B, 0x18, 0xB8,
        0xBA, 0xB6, 0xB6, 0x98, 0xED, 0xAA, 0xA9, 0xAB, 0xA9]) (master2 #v[0x01, 0x00, 0x00, 0x00]) =
      .done (writeMctr (work2 #v[0x05, 0x00, 0x00, 0x00]) 2 #v[0x02, 0x00, 0x00, 0x00])
        [.result .decoded 0x05 ([0x33, 0x44, 0x05, 0x00, 0x00, 0x00] ++ keyB.toList)] := by decide

/-- P3, steps 2 and 11: a forced counter without a direction, and no counter. -/
theorem test_decryptMaster_without_direction :
    recordsOf (ruleOf toy (.decryptMaster 3 0x05 macM macD3 (zeros 16)) (writeMctr Block.reset 3 #v[0xFF, 0x00, 0x00, 0x00])) =
      [.result .decoded 0x32 [0x11, 0x13, 0x11, 0x17, 0x11, 0x13, 0xC7, 0xC5, 0xCB, 0xCD, 0xCF, 0xCD, 0x09, 0x0C, 0x0E,
        0x0F]] ∧
    ruleOf toy (.decryptMaster 3 0x07 macM macD3 (zeros 16)) Block.reset =
      .done Block.reset [.result .missingMasterCounter 0x10 []] := by decide

/-- P2, step 5: one behind, a partial block. -/
theorem test_decryptWork :
    ruleOf toy (.decryptWork 2 0x07 macM macD [0x0B, 0x18, 0x6D, 0x7A, 0x4F]) (work2 #v[0x06, 0x00, 0x00, 0x00]) =
      .done (work2 #v[0x08, 0x00, 0x00, 0x00]) [.result .decoded 0x01 [0xAA, 0xBB, 0xCC, 0xDD, 0xEE]] := by decide

/-- P2, step 6, and the refusal of a partial tail. -/
theorem test_decryptWork_stops :
    ruleOf toy (.decryptWork 2 0x01 macD macM [0x01]) (work2 #v[0x08, 0x00, 0x00, 0x00]) =
      .done (work2 #v[0x08, 0x00, 0x00, 0x00]) [.result .missingWorkKey 0x08 []] ∧
    ruleOf { toy with tailMode := .refuse } (.decryptWork 2 0x01 macM macD [0x01]) (work2 #v[0x08, 0x00, 0x00, 0x00]) =
      .refusedTail := by decide

/-! ## Witnesses: states and operands that meet the hypotheses of the statements

Each theorem is named after its statement. Where a statement has clauses with hypotheses of their own, there is a witness for each,
at a boundary value where the clause has a range. -/

theorem witness_DecodeOfEncodeGivesTheCommand :
    (Instr.chunk [0xFF]).wellFormed = true ∧ (Instr.decryptWork 31 0xFF macM macD []).wellFormed = true := by decide

theorem witness_LegalMessageIsTheEncodingOfItsCommand :
    decode [0x11, 0x1F, 0xFF, 0xFF, 0xFF, 0xFF] = .ok (.setMctr 31 #v[0xFF, 0xFF, 0xFF, 0xFF]) := by decide

theorem witness_IllegalMessagesAreTheNineConditionsAndChangeNothing :
    ∃ (s : State) (m : List Byte) (rest : List (List Byte)), s.block.fault = false ∧ s.cmdIn = m :: rest ∧ IllegalMessage m :=
  ⟨machine (withRb [0xFF]) [[0x03], [0x02]], [0x03], [[0x02]], rfl, rfl, .inr (.inl ⟨0x03, rfl, by decide⟩)⟩

theorem witness_MessageOfAnotherLengthIsIllegal :
    expectedLength [0x02, 0x00] ≠ some ([0x02, 0x00] : List Byte).length ∧
    expectedLength [0x01, 0x01, 0x00] ≠ some ([0x01, 0x01, 0x00] : List Byte).length := by decide

theorem witness_RecordBytesFollowTheFormats :
    ([0xFF] : List Byte).length < 2 ^ 32 ∧ (zeros 65535).length < 2 ^ 16 := by simp

theorem witness_AssembledMessagesAreLegal :
    ∃ (l : AsmLine) (ms : List (List Byte)), assembleLine l = some ms ∧ ∃ m, m ∈ ms :=
  ⟨.regw 31 macD, [[0x10, 0x1F, 0xA1, 0xA2, 0xA3, 0xA4, 0xA5, 0xA6]], by decide, _, List.mem_cons_self⟩

theorem witness_StepRunsTheDecodedCommand :
    ∃ (s : State) (m : List Byte) (rest : List (List Byte)) (i : Instr), s.block.fault = false ∧ s.cmdIn = m :: rest ∧
      decode m = .ok i :=
  ⟨machine (withRb [0xFF]) [[0x02], [0x03]], [0x02], [[0x03]], .stop, rfl, rfl, by decide⟩

theorem witness_EmptyChannelLeavesTheStateAsItIs :
    (machine (withRb [0xFF]) []).block.fault = false ∧ (machine (withRb [0xFF]) []).cmdIn = [] := ⟨rfl, rfl⟩

theorem witness_EmitAppendsOrDropsAndKeepsTheBlock :
    ∃ (s : State) (r : Record) (rs : List Record), s.recOut = r :: rs :=
  ⟨{ State.reset with recOut := [.frame [0xFF], .frame [0xFF, 0x01]] }, _, _, rfl⟩

theorem witness_BlockStateDoesNotDependOnTheDraws :
    ∃ s s' : State, s ≠ s' ∧ s.block = s'.block ∧ s.cmdIn = s'.cmdIn :=
  ⟨machine Block.reset [[0x03]], { machine Block.reset [[0x03]] with draws := 5 }, by decide, rfl, rfl⟩

/-- One byte fits under every legal capacity. -/
theorem fits_one (cap : Option ℕ+) : Fits cap 1 := fun c _ => c.2

theorem witness_ChunkCarvesEveryCompleteFrame :
    Fits Config.cfg.rawbufCap ((machine Block.reset []).block.rb.length + ([0xFF] : List Byte).length) := fits_one _

/-- Five bytes over a capacity of four; FAULT set; no capacity. -/
theorem witness_ChunkPastTheCapacityFaults :
    ({ toy with rawbufCap := some 4 }.rawbufCap = some 4 ∧
      ((4 : ℕ+) : Nat) < (withRb [0xFF, 0x01]).rb.length + ([0x02, 0x03, 0x04] : List Byte).length) ∧
    (machine { Block.reset with fault := true } [[0x02]]).block.fault = true ∧ toy.rawbufCap = none := by
  exact ⟨⟨rfl, by decide⟩, rfl, rfl⟩

theorem witness_UnescapeFollowsTheTable :
    ¬((0xFE : Byte) = 0xFE ∧ ((0x03 : Byte) = 0x01 ∨ (0x03 : Byte) = 0x02)) ∧
    ¬((0xFF : Byte) = 0xFE ∧ ((0x01 : Byte) = 0x01 ∨ (0x01 : Byte) = 0x02)) := by decide

theorem witness_NoFrameIsEmpty : 1 ≤ 1 ∧ [0xFF] ∈ (carveAll 1 [0xFF, 0xFF]).1 := by decide

theorem witness_CarvingPartitionsTheStream :
    1 ≤ 1 ∧ [0xFF, 0x00] ∈ (carveAll 1 [0xFF, 0xFF, 0x00, 0xFF]).1.tail ∧ (carveAll 1 [0xFF, 0xFF, 0x00, 0xFF]).1 ≠ [] := by
  decide

theorem witness_ChunkSplitsDoNotMatter :
    Fits Config.cfg.rawbufCap
      ((machine Block.reset []).block.rb.length + (([0xFF] : List Byte).length + ([] : List Byte).length)) := fits_one _

theorem witness_NextSessionStartsAsRetentionSays :
    (work2 #v[0x05, 0x00, 0x00, 0x00]).fault = false ∧ toy.retainOnStop = false ∧
      { toy with retainOnStop := true }.retainOnStop = true := ⟨rfl, rfl, rfl⟩

theorem witness_RegWriteSetMctrAndStopAreIdempotent :
    (∃ t, exec (.regWrite 0 macD) (machine Block.reset []) = .next t) ∧
    (∃ t, exec (.setMctr 31 #v[0xFF, 0x00, 0x00, 0x00]) (machine Block.reset []) = .next t) ∧
    ∃ t, exec .stop (machine (withRb [0xFF]) []) = .next t := ⟨⟨_, rfl⟩, ⟨_, rfl⟩, ⟨_, rfl⟩⟩

theorem witness_LittleEndianReadingAndWritingAreInverse : 65535 < 2 ^ 16 ∧ 4294967295 < 2 ^ 32 := by decide

/-- In step; one behind, across a carry; forced, two ahead. -/
theorem witness_ResynchronisationHasThreeCases :
    (#v[0xFF, 0x00, 0x00, 0x00] : Counter)[0] = 0xFF ∧
    ((#v[0xFF, 0x00, 0x00, 0x00] : Counter)[0] ≠ 0x00 ∧ (inc32 #v[0xFF, 0x00, 0x00, 0x00])[0] = 0x00) ∧
    ((#v[0xFF, 0x00, 0x00, 0x00] : Counter)[0] ≠ 0x01 ∧ (inc32 #v[0xFF, 0x00, 0x00, 0x00])[0] ≠ 0x01) := by decide

theorem witness_ResynchronisedCounterCarriesTheSequenceByte :
    (#v[0xFE, 0x00, 0x00, 0x00] : Counter)[0] ≠ 0xFF := by decide

theorem witness_DirectionTestComparesSourceThenDestination :
    readReg Block.reset 2 = none ∧ readReg (master2 #v[0x00, 0x00, 0x00, 0x00]) 2 = some macD ∧ macD = macD ∧
    (macM ≠ macD ∧ macD = macD) ∧ (macM ≠ macD ∧ macD3 ≠ macD) := by decide

theorem witness_ChainDecryptsEachByteUnderItsKeystreamBlock : 0 < (zeros 1).length ∧ 16 < (zeros 17).length := by simp

/-- Two texts that differ in byte 0 alone; byte 32 lies outside the reach. -/
theorem witness_CorruptionReachesAtMostTheNextBlock :
    (0x01 :: zeros 33).length = (0x02 :: zeros 33).length ∧
    (∀ j, j / 16 ≠ 0 → (0x01 :: zeros 33)[j]? = (0x02 :: zeros 33)[j]?) ∧ 32 / 16 ≠ 0 ∧ 32 / 16 ≠ 0 + 1 := by
  refine ⟨rfl, ?_, by decide, by decide⟩
  intro j hj
  cases j with
  | zero => exact absurd rfl hj
  | succ j => rfl

theorem witness_MasterPathWithoutCounterIsReported : readMctr (machine (withRb [0xFF]) []).block 2 = none := by decide

/-- A text of whole blocks is decrypted under either TAIL_MODE. -/
theorem tail_taken_32 (mode : TailMode) : TailTaken mode (zeros 32).length := fun _ => rfl

/-- The plaintext of two blocks has 32 bytes, whatever the cipher. -/
theorem chain_32_length (E : Key → CipherBlock → CipherBlock) (k : Key) (iv : CipherBlock) :
    (chain E k iv (zeros 32)).length = 32 := by
  have first : cipherBlock (zeros 32) 0 = zeros 16 := by decide
  have second : cipherBlock (zeros 32) 1 = zeros 16 := by decide
  have x : (Vector.replicate 16 0x00 : CipherBlock).toList = cipherBlock (zeros 32) 0 := by decide
  have blocks : List.range (blockCount (zeros 32).length) = [0, 1] := by decide
  rw [chain, blocks]
  simp [plainBlock, keystream_succ E k iv (zeros 32) 0 _ x, first, second]

/-- A counter at the address and whole blocks; a direction and 20 bytes of plaintext; another address; a direction-less test. -/
theorem witness_MasterPathDecryptsStoresTheCounterAndInstallsTheKey :
    readMctr (machine (master2 #v[0x01, 0x00, 0x00, 0x00]) []).block 2 = some #v[0x01, 0x00, 0x00, 0x00] ∧
    TailTaken Config.cfg.tailMode (zeros 32).length ∧
    (dirTest (machine (master2 #v[0x01, 0x00, 0x00, 0x00]) []).block 2 macM macD).1 = some .inn ∧
    (∀ iv, 20 ≤ (chain Config.cfg.encrypt Config.cfg.masterKey iv (zeros 32)).length) ∧ (3 : Addr) ≠ 2 ∧
    ¬((2 : Addr) = 2 ∧
      (dirTest (machine (master2 #v[0x01, 0x00, 0x00, 0x00]) []).block 2 macM macD3).1 = some Dir.inn) := by
  refine ⟨by decide, tail_taken_32 _, by decide, fun iv => ?_, by decide, by decide⟩
  rw [chain_32_length]
  decide

/-- No direction; a direction whose key is missing. -/
theorem witness_WorkPathWithoutKeyIsReported :
    (∀ dir, (dirTest Block.reset 2 macM macD).1 = some dir → readWkey Block.reset 2 dir = none) ∧
    (dirTest (work2 #v[0x05, 0x00, 0x00, 0x00]) 2 macD macM).1 = some .out ∧
    (∀ dir, (dirTest (work2 #v[0x05, 0x00, 0x00, 0x00]) 2 macD macM).1 = some dir →
      readWkey (work2 #v[0x05, 0x00, 0x00, 0x00]) 2 dir = none) := by
  refine ⟨fun dir _ => readWkey_reset 2 dir, by decide, fun dir h => ?_⟩
  have e : dirTest (work2 #v[0x05, 0x00, 0x00, 0x00]) 2 macD macM = (some .out, 0x08) := by decide
  rw [e] at h
  cases h
  decide

theorem witness_WorkPathDecryptsAndAdvancesTheCounter :
    dirTest (machine (work2 #v[0x05, 0x00, 0x00, 0x00]) []).block 2 macM macD = (some .inn, 0x00) ∧
    readWkey (machine (work2 #v[0x05, 0x00, 0x00, 0x00]) []).block 2 .inn = some keyB ∧
    readWctr (machine (work2 #v[0x05, 0x00, 0x00, 0x00]) []).block 2 .inn = some #v[0x05, 0x00, 0x00, 0x00] ∧
    TailTaken Config.cfg.tailMode (zeros 32).length ∧ ¬((2 : Addr) = 2 ∧ Dir.out = Dir.inn) :=
  ⟨by decide, by decide, by decide, tail_taken_32 _, by decide⟩

/-- One byte over a whole block, on both paths: the right side of the equivalence holds under refuse. -/
theorem witness_PartialTailIsRefusedOnlyWhenConfigured :
    { toy with tailMode := .refuse }.tailMode = .refuse ∧
    PartialTailPastKeyChecks (.decryptMaster 2 0x01 macM macD (zeros 17)) (master2 #v[0x01, 0x00, 0x00, 0x00]) ∧
    PartialTailPastKeyChecks (.decryptWork 2 0x05 macM macD (zeros 17)) (work2 #v[0x05, 0x00, 0x00, 0x00]) :=
  ⟨rfl, .inl ⟨_, _, _, _, _, rfl, by decide, by decide⟩,
    .inr ⟨_, _, _, _, _, .inn, rfl, by decide, by decide, by decide, by decide⟩⟩

/-- The missing key is reported before the partial tail is refused (60_exceptions.md R207). -/
theorem test_missing_key_comes_before_the_tail :
    ruleOf { toy with tailMode := .refuse } (.decryptWork 2 0x01 macD macM [0x01]) (work2 #v[0x08, 0x00, 0x00, 0x00]) =
      .done (work2 #v[0x08, 0x00, 0x00, 0x00]) [.result .missingWorkKey 0x08 []] := by decide

theorem witness_InstalledKeyServesTheNextWorkFrame :
    readMctr (machine (master2 #v[0x01, 0x00, 0x00, 0x00]) []).block 2 ≠ none ∧
    (dirTest (machine (master2 #v[0x01, 0x00, 0x00, 0x00]) []).block 2 macM macD).1 = some .inn ∧ 20 ≤ (zeros 32).length ∧
    (∃ t, exec (.decryptMaster 2 0x01 macM macD (zeros 32)) (machine (master2 #v[0x01, 0x00, 0x00, 0x00]) []) = .next t) ∧
    TailTaken Config.cfg.tailMode (zeros 32).length := by
  refine ⟨by decide, by decide, by decide, ?_, tail_taken_32 _⟩
  have h : readMctr (machine (master2 #v[0x01, 0x00, 0x00, 0x00]) []).block 2 = some #v[0x01, 0x00, 0x00, 0x00] := by decide
  have ht : tailRefused Config.cfg.tailMode (zeros 32).length = false := tailRefused_eq_false.2 (tail_taken_32 _)
  simp only [exec, execDecryptMaster, decryptMasterRule, h, ht]
  exact ⟨_, rfl⟩

/-- Two records S that agree at address 2 and differ elsewhere. -/
theorem witness_DecryptReadsAndWritesOnlyItsOwnAddress :
    decryptAddr (.decryptWork 2 0x05 macM macD (zeros 16)) = some 2 ∧
    AgreeAt 2 (work2 #v[0x05, 0x00, 0x00, 0x00]) (writeReg (work2 #v[0x05, 0x00, 0x00, 0x00]) 3 macM) ∧
    (∃ b rs, ruleOf toy (.decryptWork 2 0x05 macM macD (zeros 16)) (work2 #v[0x05, 0x00, 0x00, 0x00]) = .done b rs) ∧
    (3 : Addr) ≠ 2 := by
  refine ⟨rfl, ⟨by decide, by decide, fun d => ⟨rfl, rfl⟩⟩, ⟨_, _, rfl⟩, by decide⟩

theorem witness_RaisedOutcomesChangeNoState :
    ruleOf toy (.decryptWork 2 0x00 macM macD []) Block.reset = .done Block.reset [.result .missingWorkKey 0x10 []] ∧
    OutcomeCode.missingWorkKey ≠ .decoded := by decide

/-- A frame, a plaintext, and one record of each raised outcome. -/
theorem witness_EmittedRecordsAreLegal :
    (∃ b, ruleOf toy (.chunk [0xFF, 0x00, 0xFF]) Block.reset = .done b [.frame [0xFF, 0x00]]) ∧
    (∃ b p, ruleOf toy (.decryptWork 2 0x06 macM macD (zeros 16)) (work2 #v[0x05, 0x00, 0x00, 0x00]) =
      .done b [.result .decoded 0x01 p]) ∧
    (∃ b, ruleOf toy (.decryptPlain 2 true 0x00 macM macD []) Block.reset = .done b [.result .notEncrypted 0x00 []]) ∧
    (∃ b, ruleOf toy (.decryptMaster 2 0x00 macM macD []) Block.reset = .done b [.result .missingMasterCounter 0x10 []]) ∧
    ∃ b, ruleOf toy (.decryptWork 2 0x00 macD macM []) (work2 #v[0x05, 0x00, 0x00, 0x00]) =
      .done b [.result .missingWorkKey 0x08 []] :=
  ⟨⟨_, rfl⟩, ⟨_, _, rfl⟩, ⟨_, rfl⟩, ⟨_, rfl⟩, ⟨_, rfl⟩⟩

/-- Next states in which each piece has changed: RB by STOP, the registry, the master counters; the keys and counters by
DECRYPT.MASTER in `witness_InstalledKeyServesTheNextWorkFrame`. -/
theorem witness_EachPieceOfStateHasItsOnlyWriters :
    (∃ t, exec .stop (machine (withRb [0xFF]) []) = .next t) ∧
    (∃ t, exec (.regWrite 2 macD) State.reset = .next t ∧ t.block.reg ≠ State.reset.block.reg) ∧
    ∃ t, exec (.setMctr 2 #v[0x01, 0x00, 0x00, 0x00]) State.reset = .next t ∧ t.block.mctr ≠ State.reset.block.mctr :=
  ⟨⟨_, rfl⟩, ⟨_, rfl, by decide⟩, ⟨_, rfl, by decide⟩⟩

/-- A good state with a marker in RB below the search offset and a message waiting. -/
theorem good_state (q : List (List Byte)) : StateInv (machine (writeReg (withRb [0xFF]) 2 macD) q) where
  notFaulted := rfl
  keysPaired := fun a d => by simp [machine, withRb]
  carved := fun j hj => by
    have h : 1 ≤ j := le_trans Config.cfg.searchOffset.2 hj
    rw [show (machine (writeReg (withRb [0xFF]) 2 macD) q).block.rb[j]? = none from List.getElem?_eq_none h]
    exact Option.some_ne_none marker ∘ Eq.symm
  withinCap := fun n _ => n.2

theorem witness_EveryStepKeepsTheInvariant :
    ∃ s t : State, StateInv s ∧ s.cmdIn ≠ [] ∧ step s = .next t :=
  ⟨machine (writeReg (withRb [0xFF]) 2 macD) [[0x10, 0x02, 0xC1, 0xC2, 0xC3, 0xC4, 0xC5, 0xC6]], _, good_state _, by decide, rfl⟩

theorem witness_GoodStatesStopOnlyAsTheSpecAllows : ∃ s : State, StateInv s ∧ s.cmdIn ≠ [] :=
  ⟨_, good_state [[0x02]], by decide⟩

/-- Two messages; before the last of them and after it. -/
theorem witness_EveryMessageIsTakenInItsTurn :
    ∃ s : State, StateInv s ∧ 1 ≤ s.cmdIn.length ∧ s.cmdIn[1]? = some [0x03] ∧ 2 ≤ s.cmdIn.length :=
  ⟨_, good_state [[0x02], [0x03]], by decide, rfl, by decide⟩

theorem witness_RunIsTheCompositionOfTheRules :
    ∃ (s : State) (b : Block) (rs : List Record), s.block.fault = false ∧ s.cmdIn.length = 2 ∧
      runMessages Config.cfg s.cmdIn s.block = some (b, rs) :=
  ⟨machine Block.reset [[0x10, 0x02, 0xC1, 0xC2, 0xC3, 0xC4, 0xC5, 0xC6], [0x03]], _, _, rfl, rfl, rfl⟩

end Sys2Proof.Tests
end

/-! SUPPORT. Byte order and raised outcomes (00_scope.md R15, R17): the rules about them, and the statements they settle. -/
section

namespace Sys2Proof.Machine

/-! ## Little-endian numbers (00_scope.md R15) -/

/-- Byte `i` of `LE32 n` is the digit of `n` in base 256 at that place. -/
theorem le32_getElem_toNat (n i : Nat) (h : i < 4) : (le32 n)[i].toNat = n / 2 ^ (8 * i) % 2 ^ 8 := by
  match i, h with
  | 0, _ | 1, _ | 2, _ | 3, _ => simp [le32]

theorem u32_lt (ctr : Counter) : u32 ctr < 2 ^ 32 := by
  simp only [u32]
  omega

theorem u32_le32 {n : Nat} (h : n < 2 ^ 32) : u32 (le32 n) = n := by
  simp only [u32, le32_getElem_toNat]
  omega

theorem le32_u32 (ctr : Counter) : le32 (u32 ctr) = ctr := by
  apply Vector.ext
  intro i h
  apply BitVec.eq_of_toNat_eq
  rw [le32_getElem_toNat]
  match i, h with
  | 0, _ | 1, _ | 2, _ | 3, _ =>
    simp only [u32]
    omega

/-- Settles O28: a two-byte field and a counter are the digits of their number in base 256. -/
theorem littleEndianReadingAndWritingAreInverse : Obligations.LittleEndianReadingAndWritingAreInverse := by
  refine ⟨fun n h => ?_, fun n h => u32_le32 h, fun ctr => ⟨u32_lt ctr, le32_u32 ctr⟩⟩
  have hmax : n ≤ maxLength := Nat.le_of_lt_succ h
  exact u16_of_le16_bytes hmax

/-! ## The RESULT a command emits (00_scope.md R17) -/

theorem raise_eq_done {oc : OutcomeCode} {st : Byte} {b b' : Block} {rs : List Record} :
    raise oc st b = .done b' rs ↔ b' = b ∧ rs = [.result oc st []] := by
  simp only [raise, Effect.done.injEq, eq_comm]

/-- What a command that emits a RESULT can be: the outcome was raised, so S is as it was, or its code is DECODED. Either way
it is the command's only record. -/
theorem ruleOf_result_cases {c : Config} {i : Instr} {b b' : Block} {rs : List Record} {oc : OutcomeCode} {st : Byte}
    {p : List Byte} (h : ruleOf c i b = .done b' rs) (hr : .result oc st p ∈ rs) :
    rs = [.result oc st p] ∧ (oc = .decoded ∨ b' = b ∧ p = []) := by
  have raised {oc' st'} (e : ruleOf c i b = raise oc' st' b) :
      rs = [.result oc st p] ∧ (oc = .decoded ∨ b' = b ∧ p = []) := by
    obtain ⟨rfl, rfl⟩ := raise_eq_done.1 (e.symm.trans h)
    obtain ⟨rfl, rfl, rfl⟩ : oc = oc' ∧ st = st' ∧ p = [] := by simpa using hr
    exact ⟨rfl, .inr ⟨rfl, rfl⟩⟩
  have decoded {b'' st' p'} (e : ruleOf c i b = .done b'' [.result .decoded st' p']) :
      rs = [.result oc st p] ∧ (oc = .decoded ∨ b' = b ∧ p = []) := by
    obtain ⟨rfl, rfl⟩ := Effect.done.inj (e.symm.trans h)
    obtain ⟨rfl, rfl, rfl⟩ : oc = .decoded ∧ st = st' ∧ p = p' := by simpa using hr
    exact ⟨rfl, .inl rfl⟩
  cases i with
  | chunk data =>
    obtain ⟨-, e⟩ | ⟨-, e⟩ := chunkRule_cases c data b
    · cases e.symm.trans h
    · obtain ⟨-, rfl⟩ := Effect.done.inj (e.symm.trans h)
      simp at hr
  | stop | regWrite | setMctr =>
    obtain ⟨-, rfl⟩ := Effect.done.inj h
    simp at hr
  | decryptPlain => exact raised rfl
  | decryptMaster a seq src dst ct =>
    obtain ⟨-, e⟩ | ⟨ctr, -, ⟨-, e⟩ | ⟨-, e⟩⟩ := decryptMasterRule_cases c a seq src dst ct b
    · exact raised e
    · cases e.symm.trans h
    · exact decoded (e _ _ _ _ rfl rfl rfl rfl)
  | decryptWork a seq src dst ct =>
    obtain ⟨-, e⟩ | ⟨dir, key, -, -, ⟨-, e⟩ | ⟨ctr, -, ⟨-, e⟩ | ⟨-, e⟩⟩⟩ := decryptWorkRule_cases c a seq src dst ct b
    · exact raised e
    · cases e.symm.trans h
    · cases e.symm.trans h
    · exact decoded (e _ rfl)

/-- Settles O45: a RESULT that is not DECODED was raised. -/
theorem raisedOutcomesChangeNoState : Obligations.RaisedOutcomesChangeNoState := by
  intro c i b b' rs oc st p h hr hoc
  obtain ⟨-, hdecoded | hraised⟩ := ruleOf_result_cases h hr
  · exact absurd hdecoded hoc
  · exact hraised

end Sys2Proof.Machine
end

/-! SUPPORT. Carving (40_reassembler.md R111, R113): the marker search, the run of the carving loop and what a run keeps of RB;
and the statement of the family of 10_state.md that they settle. -/
section

namespace Sys2Proof.Machine

open Sys2Proof.Said

/-! ## The marker search and CARVE (40_reassembler.md R111) -/

theorem findMarker_eq_none {off : Nat} {rb : List Byte} : findMarker off rb = none ↔ Carved off rb := by
  calc findMarker off rb = none
    _ ↔ marker ∉ rb.drop off := by
      simp only [findMarker, Option.map_eq_none_iff, List.findIdx?_eq_none_iff, beq_eq_false_iff_ne, List.forall_mem_ne']
    _ ↔ ∀ i, rb[off + i]? ≠ some marker := by
      simp only [List.mem_iff_getElem?, List.getElem?_drop, not_exists, ne_eq]
    _ ↔ Carved off rb := by
      refine ⟨fun h j hj => ?_, fun h i => h _ (Nat.le_add_right off i)⟩
      rw [← Nat.add_sub_cancel' hj]
      exact h _

theorem findMarker_eq_some {off : Nat} {rb : List Byte} {j : Nat} :
    findMarker off rb = some j ↔
      off ≤ j ∧ rb[j]? = some marker ∧ ∀ i, off ≤ i → i < j → rb[i]? ≠ some marker := by
  simp only [findMarker, Option.map_eq_some_iff, List.findIdx?_eq_some_iff_getElem, beq_iff_eq, List.getElem_drop,
    List.length_drop]
  constructor
  · rintro ⟨k, ⟨hk, hmarker, hleast⟩, rfl⟩
    refine ⟨Nat.le_add_left off k, ?_, fun i hi hik => ?_⟩
    · rw [Nat.add_comm, List.getElem?_eq_getElem (by omega), hmarker]
    · obtain ⟨d, rfl⟩ := Nat.exists_eq_add_of_le hi
      rw [List.getElem?_eq_getElem (by omega), ne_eq, Option.some.injEq]
      exact hleast d (by omega)
  · rintro ⟨hoff, hmarker, hleast⟩
    obtain ⟨d, rfl⟩ := Nat.exists_eq_add_of_le hoff
    obtain ⟨hlen, hd⟩ := List.getElem?_eq_some_iff.1 hmarker
    refine ⟨d, ⟨by omega, hd, fun i hi e => ?_⟩, Nat.add_comm d off⟩
    exact hleast (off + i) (by omega) (by omega) (List.getElem?_eq_some_iff.2 ⟨by omega, e⟩)

theorem carve_eq_none {off : Nat} {rb : List Byte} : carve off rb = none ↔ Carved off rb := by
  rw [carve, Option.map_eq_none_iff, findMarker_eq_none]

theorem carve_eq_some {off : Nat} {rb f rest : List Byte} :
    carve off rb = some (f, rest) ↔
      ∃ j, (off ≤ j ∧ rb[j]? = some marker ∧ ∀ i, off ≤ i → i < j → rb[i]? ≠ some marker) ∧
        rb.take j = f ∧ rb.drop j = rest := by
  simp only [carve, Option.map_eq_some_iff, findMarker_eq_some, Prod.mk.injEq]

/-! ## The carving loop (40_reassembler.md R113) -/

/-- Each cut is at index 1 or above, so as many rounds as RB has bytes reach the end of the run. -/
theorem carveRun_carveLoop {off : Nat} (hoff : 1 ≤ off) (fuel : Nat) (rb : List Byte) (hfuel : rb.length ≤ fuel) :
    CarveRun off rb (carveLoop off fuel rb).1 (carveLoop off fuel rb).2 := by
  induction fuel generalizing rb with
  | zero =>
    obtain rfl := List.eq_nil_of_length_eq_zero (Nat.le_zero.1 hfuel)
    exact .none [] (by simp)
  | succ fuel ih =>
    cases h : carve off rb with
    | none =>
      simp only [carveLoop, h]
      exact .none rb (carve_eq_none.1 h)
    | some cut =>
      obtain ⟨f, rest⟩ := cut
      obtain ⟨j, ⟨above, holds, least⟩, rfl, rfl⟩ := carve_eq_some.1 h
      simp only [carveLoop, h]
      exact .done rb j _ _ above holds least (ih _ (by rw [List.length_drop]; omega))

theorem carveRun_carveAll {off : Nat} (hoff : 1 ≤ off) (rb : List Byte) :
    CarveRun off rb (carveAll off rb).1 (carveAll off rb).2 :=
  carveRun_carveLoop hoff rb.length rb le_rfl

/-- A run cuts RB and nothing else (10_state.md R22). -/
theorem carveRun_flatten_append {off : Nat} {rb rest : List Byte} {frames : List (List Byte)}
    (h : CarveRun off rb frames rest) : frames.flatten ++ rest = rb := by
  induction h with
  | none => rfl
  | done rb j frames rest _ _ _ _ ih => rw [List.flatten_cons, List.append_assoc, ih, List.take_append_drop]

theorem carveRun_rest_length_le {off : Nat} {rb rest : List Byte} {frames : List (List Byte)}
    (h : CarveRun off rb frames rest) : rest.length ≤ rb.length := by
  rw [← carveRun_flatten_append h, List.length_append]
  exact Nat.le_add_left _ _

theorem carveRun_carved {off : Nat} {rb rest : List Byte} {frames : List (List Byte)}
    (h : CarveRun off rb frames rest) : Carved off rest := by
  induction h with
  | none rb no => exact no
  | done _ _ _ _ _ _ _ _ ih => exact ih

/-- From an RB that begins with the marker, every piece of the run begins with it: each cut leaves the marker in front
(40_reassembler.md R114). -/
theorem carveRun_head_of_head {off : Nat} (hoff : 1 ≤ off) {rb rest : List Byte} {frames : List (List Byte)}
    (h : CarveRun off rb frames rest) (hrb : rb.head? = some marker) :
    (∀ f ∈ frames, f.head? = some marker) ∧ rest.head? = some marker := by
  induction h with
  | none => exact ⟨List.forall_mem_nil _, hrb⟩
  | done rb j frames rest above holds _ _ ih =>
    have hcut : (rb.take j).head? = some marker := by rw [List.head?_take, if_neg (by omega), hrb]
    obtain ⟨hframes, hrest⟩ := ih (by rw [List.head?_drop]; exact holds)
    exact ⟨List.forall_mem_cons.2 ⟨hcut, hframes⟩, hrest⟩

/-- What follows the first cut of a run begins with the marker. -/
theorem carveRun_head {off : Nat} (hoff : 1 ≤ off) {rb rest : List Byte} {frames : List (List Byte)}
    (h : CarveRun off rb frames rest) :
    (∀ f ∈ frames.tail, f.head? = some marker) ∧ (frames ≠ [] → rest.head? = some marker) := by
  cases h with
  | none => exact ⟨List.forall_mem_nil _, fun h => absurd rfl h⟩
  | done _ j frames rest _ holds _ more =>
    obtain ⟨hframes, hrest⟩ := carveRun_head_of_head hoff more (by rw [List.head?_drop]; exact holds)
    exact ⟨hframes, fun _ => hrest⟩

/-- Settles O21: the loop is a run, and a run cuts RB into pieces of which all but the first begin with the marker. -/
theorem carvingPartitionsTheStream : Obligations.CarvingPartitionsTheStream := by
  intro off rb hoff
  have hrun := carveRun_carveAll hoff rb
  exact ⟨carveRun_flatten_append hrun, carveRun_head hoff hrun⟩

end Sys2Proof.Machine
end

/-! SUPPORT. What a completed command can do to S, and what a step can do, said once each; and the statements of the family of
10_state.md: who writes what, what reset sets, and the invariant. -/
section

namespace Sys2Proof.Machine

open Sys2Proof.Said

/-! ## What a completed command leaves in S -/

/-- `Completes c b i b'`: under configuration `c`, command `i` completes from `b` and leaves `b'`, as far as the statements about S
ask: the values stored are left open, and of the guards those are kept that the invariant rests on. Every completed rule is
one of these cases (`completes_of_ruleOf`). -/
inductive Completes (c : Config) (b : Block) : Instr → Block → Prop where
  | chunk (data : List Byte) (fits : Fits c.rawbufCap (b.rb.length + data.length)) :
      Completes c b (.chunk data) (setRb b (carveAll c.searchOffset (b.rb ++ data)).2)
  | stopRetaining : Completes c b .stop (setRb b [])
  | stopClearing : Completes c b .stop (clearTables (setRb b []))
  | regWrite (a : Addr) (mac : Mac) : Completes c b (.regWrite a mac) (writeReg b a mac)
  | setMctr (a : Addr) (ctr : Counter) : Completes c b (.setMctr a ctr) (writeMctr b a ctr)
  | decryptPlain (a : Addr) (kind : Bool) (seq : Byte) (src dst : Mac) (ct : List Byte) :
      Completes c b (.decryptPlain a kind seq src dst ct) b
  | masterRaised (a : Addr) (seq : Byte) (src dst : Mac) (ct : List Byte) :
      Completes c b (.decryptMaster a seq src dst ct) b
  | masterStored (a : Addr) (seq : Byte) (src dst : Mac) (ct : List Byte) (ctr : Counter) :
      Completes c b (.decryptMaster a seq src dst ct) (writeMctr b a ctr)
  | masterInstalled (a : Addr) (seq : Byte) (src dst : Mac) (ct : List Byte) (ctr : Counter) (d : Dir) (key : Key)
      (wctr : Counter) :
      Completes c b (.decryptMaster a seq src dst ct) (writeWctr (writeWkey (writeMctr b a ctr) a d key) a d wctr)
  | workRaised (a : Addr) (seq : Byte) (src dst : Mac) (ct : List Byte) : Completes c b (.decryptWork a seq src dst ct) b
  | workAdvanced (a : Addr) (seq : Byte) (src dst : Mac) (ct : List Byte) (d : Dir) (ctr : Counter)
      (present : readWkey b a d ≠ none) : Completes c b (.decryptWork a seq src dst ct) (writeWctr b a d ctr)

theorem completes_of_chunkRule {c : Config} {data : List Byte} {b b' : Block} {rs : List Record}
    (h : chunkRule c data b = .done b' rs) : Completes c b (.chunk data) b' := by
  obtain ⟨-, e⟩ | ⟨hcap, e⟩ := chunkRule_cases c data b
  · cases e.symm.trans h
  · obtain ⟨rfl, -⟩ := Effect.done.inj (e.symm.trans h)
    exact .chunk data (overCap_eq_false.1 hcap)

theorem completes_of_stopRule {c : Config} {b b' : Block} {rs : List Record} (h : stopRule c b = .done b' rs) :
    Completes c b .stop b' := by
  obtain ⟨rfl, -⟩ := Effect.done.inj h
  split
  · exact .stopRetaining
  · exact .stopClearing

theorem completes_of_decryptMasterRule {c : Config} {a : Addr} {seq : Byte} {src dst : Mac} {ct : List Byte}
    {b b' : Block} {rs : List Record} (h : decryptMasterRule c a seq src dst ct b = .done b' rs) :
    Completes c b (.decryptMaster a seq src dst ct) b' := by
  obtain ⟨-, e⟩ | ⟨ctr, -, ⟨-, e⟩ | ⟨-, e⟩⟩ := decryptMasterRule_cases c a seq src dst ct b
  · obtain ⟨rfl, -⟩ := raise_eq_done.1 (e.symm.trans h)
    exact .masterRaised a seq src dst ct
  · cases e.symm.trans h
  · obtain ⟨rfl, -⟩ := Effect.done.inj ((e _ _ _ _ rfl rfl rfl rfl).symm.trans h)
    obtain ⟨-, hk⟩ | ⟨-, -, hk⟩ | ⟨d, key, wctr, -, -, -, -, hk⟩ := install_cases
      (writeMctr b a (resync c.resyncHigh ctr seq).1) a (dirTest b a src dst).1
      (chain c.encrypt c.masterKey (ivOf src dst (resync c.resyncHigh ctr seq).1) ct)
    all_goals rw [hk]
    · exact .masterStored a seq src dst ct _
    · exact .masterStored a seq src dst ct _
    · exact .masterInstalled a seq src dst ct _ d key wctr

theorem completes_of_decryptWorkRule {c : Config} {a : Addr} {seq : Byte} {src dst : Mac} {ct : List Byte}
    {b b' : Block} {rs : List Record} (h : decryptWorkRule c a seq src dst ct b = .done b' rs) :
    Completes c b (.decryptWork a seq src dst ct) b' := by
  obtain ⟨-, e⟩ | ⟨d, key, -, hkey, ⟨-, e⟩ | ⟨ctr, -, ⟨-, e⟩ | ⟨-, e⟩⟩⟩ := decryptWorkRule_cases c a seq src dst ct b
  · obtain ⟨rfl, -⟩ := raise_eq_done.1 (e.symm.trans h)
    exact .workRaised a seq src dst ct
  · cases e.symm.trans h
  · cases e.symm.trans h
  · obtain ⟨rfl, -⟩ := Effect.done.inj ((e _ rfl).symm.trans h)
    exact .workAdvanced a seq src dst ct d _ (by rw [hkey]; exact Option.some_ne_none key)

theorem completes_of_ruleOf {c : Config} {i : Instr} {b b' : Block} {rs : List Record}
    (h : ruleOf c i b = .done b' rs) : Completes c b i b' := by
  cases i with
  | chunk data => exact completes_of_chunkRule h
  | stop => exact completes_of_stopRule h
  | regWrite a mac =>
    obtain ⟨rfl, -⟩ := Effect.done.inj h
    exact .regWrite a mac
  | setMctr a ctr =>
    obtain ⟨rfl, -⟩ := Effect.done.inj h
    exact .setMctr a ctr
  | decryptPlain a kind seq src dst ct =>
    obtain ⟨rfl, -⟩ := raise_eq_done.1 h
    exact .decryptPlain a kind seq src dst ct
  | decryptMaster => exact completes_of_decryptMasterRule h
  | decryptWork => exact completes_of_decryptWorkRule h

/-! ## Who writes what (10_state.md R22 to R28) -/

section Writers

variable {c : Config} {b b' : Block} {i : Instr}

theorem completes_fault (h : Completes c b i b') : b'.fault = b.fault := by
  cases h <;> rfl

theorem completes_rb_writers (h : Completes c b i b') (hne : b'.rb ≠ b.rb) : (∃ data, i = .chunk data) ∨ i = .stop := by
  cases h with
  | chunk data => exact .inl ⟨data, rfl⟩
  | stopRetaining | stopClearing => exact .inr rfl
  | _ => exact absurd rfl hne

theorem completes_reg_writers (h : Completes c b i b') (hne : b'.reg ≠ b.reg) :
    (∃ a mac, i = .regWrite a mac) ∨ i = .stop := by
  cases h with
  | regWrite a mac => exact .inl ⟨a, mac, rfl⟩
  | stopClearing => exact .inr rfl
  | _ => exact absurd rfl hne

theorem completes_mctr_writers (h : Completes c b i b') (hne : b'.mctr ≠ b.mctr) :
    (∃ a ctr, i = .setMctr a ctr) ∨ (∃ a seq src dst ct, i = .decryptMaster a seq src dst ct) ∨ i = .stop := by
  cases h with
  | setMctr a ctr => exact .inl ⟨a, ctr, rfl⟩
  | masterStored | masterInstalled => exact .inr (.inl ⟨_, _, _, _, _, rfl⟩)
  | stopClearing => exact .inr (.inr rfl)
  | _ => exact absurd rfl hne

theorem completes_wkey_writers (h : Completes c b i b') (hne : b'.wkey ≠ b.wkey) :
    (∃ a seq src dst ct, i = .decryptMaster a seq src dst ct) ∨ i = .stop := by
  cases h with
  | masterInstalled => exact .inl ⟨_, _, _, _, _, rfl⟩
  | stopClearing => exact .inr rfl
  | _ => exact absurd rfl hne

theorem completes_wctr_writers (h : Completes c b i b') (hne : b'.wctr ≠ b.wctr) :
    (∃ a seq src dst ct, i = .decryptMaster a seq src dst ct) ∨ (∃ a seq src dst ct, i = .decryptWork a seq src dst ct) ∨
      i = .stop := by
  cases h with
  | masterInstalled => exact .inl ⟨_, _, _, _, _, rfl⟩
  | workAdvanced => exact .inr (.inl ⟨_, _, _, _, _, rfl⟩)
  | stopClearing => exact .inr (.inr rfl)
  | _ => exact absurd rfl hne

end Writers

/-- Settles O47: each piece of S by its own lemma, the channel because delivering records leaves it. -/
theorem eachPieceOfStateHasItsOnlyWriters : Obligations.EachPieceOfStateHasItsOnlyWriters := by
  intro i s t h
  rw [exec_eq_commit, commit_eq_next] at h
  obtain ⟨b, rs, hrule, rfl⟩ := h
  have hdone := completes_of_ruleOf hrule
  rw [emitAll_block, emitAll_cmdIn]
  exact ⟨completes_rb_writers hdone, completes_reg_writers hdone, completes_mctr_writers hdone,
    completes_wkey_writers hdone, completes_wctr_writers hdone, completes_fault hdone, rfl⟩

/-! ## Reset (10_state.md R34) -/

/-- Settles O14: reset replaces S, and S only, by the block of R34. -/
theorem resetEmptiesTheBlockAndKeepsTheChannels : Obligations.ResetEmptiesTheBlockAndKeepsTheChannels := by
  intro s
  have htables (a : Addr) : readReg Block.reset a = none ∧ readMctr Block.reset a = none ∧
      ∀ d, readWkey Block.reset a d = none ∧ readWctr Block.reset a d = none :=
    ⟨readReg_reset a, readMctr_reset a, fun d => ⟨readWkey_reset a d, readWctr_reset a d⟩⟩
  exact ⟨rfl, rfl, htables, rfl, rfl, rfl, rfl⟩

/-! ## Work keys and work counters are paired (10_state.md R29) -/

theorem keysPaired_of_eq {b b' : Block} (h : KeysPaired b) (hkey : b'.wkey = b.wkey) (hctr : b'.wctr = b.wctr) :
    KeysPaired b' := by
  intro a d
  rw [readWkey, readWctr, hkey, hctr]
  exact h a d

theorem keysPaired_clearTables (b : Block) : KeysPaired (clearTables b) := by
  intro a d
  simp only [readWkey_clearTables, readWctr_clearTables]

theorem keysPaired_reset : KeysPaired Block.reset := by
  intro a d
  simp only [readWkey_reset, readWctr_reset]

/-- Writing a counter keeps the pairing where there is a key already. -/
theorem keysPaired_writeWctr {b : Block} {a : Addr} {d : Dir} (h : KeysPaired b) (hkey : readWkey b a d ≠ none)
    (ctr : Counter) : KeysPaired (writeWctr b a d ctr) := by
  intro a' d'
  rw [readWkey_writeWctr]
  by_cases hat : a' = a ∧ d' = d
  · obtain ⟨rfl, rfl⟩ := hat
    simp [hkey]
  · rw [readWctr_writeWctr_ne b ctr hat]
    exact h a' d'

/-- Writing key and counter of one address and direction together keeps the pairing (41_key_engine.md R148). -/
theorem keysPaired_writeWkey_writeWctr {b : Block} (h : KeysPaired b) (a : Addr) (d : Dir) (key : Key) (ctr : Counter) :
    KeysPaired (writeWctr (writeWkey b a d key) a d ctr) := by
  intro a' d'
  rw [readWkey_writeWctr]
  by_cases hat : a' = a ∧ d' = d
  · obtain ⟨rfl, rfl⟩ := hat
    simp
  · rw [readWctr_writeWctr_ne _ ctr hat, readWctr_writeWkey, readWkey_writeWkey_ne b key hat]
    exact h a' d'

theorem completes_keysPaired {c : Config} {b b' : Block} {i : Instr} (h : Completes c b i b') (hb : KeysPaired b) :
    KeysPaired b' := by
  cases h with
  | stopClearing => exact keysPaired_clearTables _
  | masterInstalled a _ _ _ _ ctr d key wctr =>
    exact keysPaired_writeWkey_writeWctr (keysPaired_of_eq hb (writeMctr_wkey b a ctr) (writeMctr_wctr b a ctr)) a d key wctr
  | workAdvanced _ _ _ _ _ _ ctr present => exact keysPaired_writeWctr hb present ctr
  | _ => exact keysPaired_of_eq hb rfl rfl

/-! ## RB is carved and within its capacity (40_reassembler.md R113, 00_scope.md R12) -/

theorem carved_nil (off : Nat) : Carved off [] := by
  simp [Carved]

theorem withinCap_nil (cap : Option ℕ+) : WithinCap cap [] := fun n _ => Nat.zero_le n

theorem carved_carveAll {off : Nat} (hoff : 1 ≤ off) (rb : List Byte) : Carved off (carveAll off rb).2 :=
  carveRun_carved (carveRun_carveAll hoff rb)

/-- Carving only shortens RB, so a chunk that fits leaves RB within its capacity. -/
theorem withinCap_carveAll {off : Nat} {cap : Option ℕ+} (hoff : 1 ≤ off) {rb : List Byte} (h : Fits cap rb.length) :
    WithinCap cap (carveAll off rb).2 :=
  fun n hn => (carveRun_rest_length_le (carveRun_carveAll hoff rb)).trans (h n hn)

theorem completes_rb_inv {c : Config} {b b' : Block} {i : Instr} (h : Completes c b i b')
    (hb : Carved c.searchOffset b.rb ∧ WithinCap c.rawbufCap b.rb) :
    Carved c.searchOffset b'.rb ∧ WithinCap c.rawbufCap b'.rb := by
  cases h with
  | chunk data fits =>
    rw [← List.length_append] at fits
    exact ⟨carved_carveAll c.searchOffset.2 _, withinCap_carveAll c.searchOffset.2 fits⟩
  | stopRetaining | stopClearing => exact ⟨carved_nil _, withinCap_nil _⟩
  | _ => exact hb

/-! ## The invariant -/

theorem blockInv_reset (c : Config) : BlockInv c Block.reset :=
  ⟨rfl, keysPaired_reset, carved_nil _, withinCap_nil _⟩

/-- Settles O48. -/
theorem invariantHoldsAtReset : Obligations.InvariantHoldsAtReset := blockInv_reset Config.cfg

/-- Under every configuration a command that completes keeps the invariant. -/
theorem completes_blockInv {c : Config} {b b' : Block} {i : Instr} (h : Completes c b i b') (hb : BlockInv c b) :
    BlockInv c b' := by
  obtain ⟨hfault, hpaired, hcarved, hcap⟩ := hb
  obtain ⟨hcarved', hcap'⟩ := completes_rb_inv h ⟨hcarved, hcap⟩
  exact ⟨(completes_fault h).trans hfault, completes_keysPaired h hpaired, hcarved', hcap'⟩

/-- What a message that is taken to its end can be: an illegal one, which leaves S (60_exceptions.md R202), or a command that
completes. -/
theorem messageRule_done_cases {c : Config} {m : List Byte} {b b' : Block} {rs : List Record}
    (h : messageRule c m b = .done b' rs) :
    (∃ e, decode m = .error e ∧ b' = b ∧ rs = [.result .illegalCommand 0x00 []]) ∨
    ∃ i, decode m = .ok i ∧ ruleOf c i b = .done b' rs := by
  unfold messageRule at h
  cases hd : decode m with
  | error e =>
    rw [hd] at h
    exact .inl ⟨e, rfl, raise_eq_done.1 h⟩
  | ok i =>
    rw [hd] at h
    exact .inr ⟨i, rfl, h⟩

/-- What a step that gives a next state can be: with CMD_IN empty the state stays, or the front message is taken to its end. -/
theorem step_next_cases {s t : State} (h : step s = .next t) :
    s.block.fault = false ∧
    ((s.cmdIn = [] ∧ t = s) ∨
    ∃ m rest b rs, s.cmdIn = m :: rest ∧ messageRule Config.cfg m s.block = .done b rs ∧
      t = emitAll rs { s with block := b, cmdIn := rest }) := by
  cases hf : s.block.fault with
  | true => simp [step, controllerStep, hf] at h
  | false =>
    refine ⟨rfl, ?_⟩
    cases hq : s.cmdIn with
    | nil =>
      simp only [step, controllerStep, hf, hq] at h
      cases h
      exact .inl ⟨rfl, rfl⟩
    | cons m rest =>
      rw [step_eq_commit hf hq, commit_eq_next] at h
      obtain ⟨b, rs, hrule, rfl⟩ := h
      exact .inr ⟨m, rest, b, rs, rfl, hrule, rfl⟩

/-- Settles O49: a step leaves S, or S is what a completed command leaves. -/
theorem everyStepKeepsTheInvariant : Obligations.EveryStepKeepsTheInvariant := by
  intro s t hs h
  obtain ⟨-, ⟨-, rfl⟩ | ⟨m, rest, b, rs, -, hrule, rfl⟩⟩ := step_next_cases h
  · exact hs
  · rw [StateInv, emitAll_block]
    obtain ⟨-, -, rfl, -⟩ | ⟨i, -, hi⟩ := messageRule_done_cases hrule
    · exact hs
    · exact completes_blockInv (completes_of_ruleOf hi) hs

end Sys2Proof.Machine
end

/-! SUPPORT. The channels (20_memory.md): what emitting does to REC_OUT and the diagnostic line, a step without its draws, runs as
compositions of the rules, and idempotence; and the statements of the family of 20_memory.md. -/
section

namespace Sys2Proof.Machine

/-! ## Emitting (20_memory.md R57, R61) -/

theorem emit_of_accepted {s : State} (h : Config.accept s.draws = true) (r : Record) :
    emit r s = { s with recOut := s.recOut ++ [r], draws := s.draws + 1 } := if_pos h

theorem emit_of_dropped {s : State} (h : Config.accept s.draws = false) (r : Record) :
    emit r s = { s with dropLine := s.dropLine ++ [r], draws := s.draws + 1 } := if_neg (by simp [h])

@[simp] theorem emitAll_draws (rs : List Record) (s : State) : (emitAll rs s).draws = s.draws + rs.length := by
  induction rs generalizing s with
  | nil => rfl
  | cons r rs ih =>
    rw [emitAll_cons, ih, emit_draws, List.length_cons]
    omega

/-- The channels after an `emitAll`: each record goes to one of the two, which keeps its order. -/
theorem emitAll_channels (rs : List Record) (s : State) : ∃ kept dropped : List Record,
    kept.Sublist rs ∧ dropped.Sublist rs ∧ (kept ++ dropped).Perm rs ∧
    (emitAll rs s).recOut = s.recOut ++ kept ∧ (emitAll rs s).dropLine = s.dropLine ++ dropped := by
  induction rs generalizing s with
  | nil => exact ⟨[], [], .slnil, .slnil, .nil, by simp, by simp⟩
  | cons r rs ih =>
    obtain ⟨kept, dropped, hkept, hdropped, hperm, hrec, hdrop⟩ := ih (emit r s)
    rw [emitAll_cons, hrec, hdrop]
    obtain h | h := emit_cases r s <;> rw [h]
    · exact ⟨r :: kept, dropped, hkept.cons_cons r, hdropped.cons r, hperm.cons r, by simp, rfl⟩
    · exact ⟨kept, r :: dropped, hkept.cons r, hdropped.cons_cons r, List.perm_middle.trans (hperm.cons r), rfl, by simp⟩

/-- Settles O12: by induction on the records, each of which goes to one of the two channels. -/
theorem recordsKeepTheirOrder : Obligations.RecordsKeepTheirOrder := by
  intro rs s
  obtain ⟨kept, dropped, hkept, hdropped, hperm, hrec, hdrop⟩ := emitAll_channels rs s
  exact ⟨kept, dropped, hkept, hdropped, hperm, hrec, hdrop, emitAll_draws rs s, emitAll_block rs s, emitAll_cmdIn rs s⟩

/-- Settles O11: the two outcomes of the draw. -/
theorem emitAppendsOrDropsAndKeepsTheBlock : Obligations.EmitAppendsOrDropsAndKeepsTheBlock := by
  constructor
  · intro r s
    refine ⟨emit_block r s, emit_cmdIn r s, emit_draws r s, ?_⟩
    cases h : Config.accept s.draws with
    | true => simp [emit_of_accepted h]
    | false => simp [emit_of_dropped h]
  · intro s r rs h
    simp only [hostReceive, h]

/-! ## A step and the draws (20_memory.md R57) -/

/-- The answer of a rule decides what S is after its delivery and whether the machine goes on: the state it is delivered to, with
its channels and draws, does not count. -/
theorem blockAfter_commit_congr (e : Effect) (s s' : State) :
    blockAfter (commit e s) = blockAfter (commit e s') ∧
    ((∃ t, commit e s = .next t) ↔ ∃ t', commit e s' = .next t') := by
  cases e with
  | done b rs => simp [blockAfter]
  | overflow b => simp [commit, blockAfter]
  | refusedTail | counterMissing => simp [commit, blockAfter]

/-- A step while FAULT is set (60_exceptions.md R203). -/
theorem step_of_fault {s : State} (hf : s.block.fault = true) : step s = .fault .blockFaulted := if_pos hf

/-- A step while CMD_IN is empty (70_reset_and_hazards.md R238). -/
theorem step_of_empty {s : State} (hf : s.block.fault = false) (hq : s.cmdIn = []) : step s = .next s := by
  simp [step, controllerStep, hf, hq]

/-- Settles O13: both states take the same message under the same S, so the same answer is delivered to both. -/
theorem blockStateDoesNotDependOnTheDraws : Obligations.BlockStateDoesNotDependOnTheDraws := by
  intro s s' hb hq
  cases hf : s.block.fault with
  | true =>
    rw [step_of_fault hf, step_of_fault (hb ▸ hf)]
    exact ⟨rfl, Iff.rfl⟩
  | false =>
    cases hm : s.cmdIn with
    | nil =>
      rw [step_of_empty hf hm, step_of_empty (hb ▸ hf) (hq ▸ hm)]
      exact ⟨by simp [blockAfter, hb], by simp⟩
    | cons m rest =>
      rw [step_eq_commit hf hm, step_eq_commit (hb ▸ hf) (hq ▸ hm), ← hb]
      exact blockAfter_commit_congr _ _ _

/-! ## Steps and runs as the rules say (20_memory.md R56, R58, R60) -/

/-- Settles O9: a step is the front message's rule, delivered, and so is the command's meaning. -/
theorem stepRunsTheDecodedCommand : Obligations.StepRunsTheDecodedCommand := by
  intro s m rest i hf hq hd
  rw [step_eq_commit hf hq, exec_eq_commit, messageRule, hd]

theorem runMessages_cons_eq_some {c : Config} {m : List Byte} {ms : List (List Byte)} {b b' : Block} {rs : List Record} :
    runMessages c (m :: ms) b = some (b', rs) ↔
      ∃ b₁ rs₁ rs₂, messageRule c m b = .done b₁ rs₁ ∧ runMessages c ms b₁ = some (b', rs₂) ∧ rs = rs₁ ++ rs₂ := by
  simp only [runMessages]
  cases messageRule c m b with
  | done b₁ rs₁ => simp [eq_comm]
  | overflow | refusedTail | counterMissing => simp

/-- A message that is taken to its end leaves FAULT as it was. -/
theorem messageRule_done_fault {c : Config} {m : List Byte} {b b' : Block} {rs : List Record}
    (h : messageRule c m b = .done b' rs) : b'.fault = b.fault := by
  obtain ⟨-, -, rfl, -⟩ | ⟨i, -, hi⟩ := messageRule_done_cases h
  · rfl
  · exact completes_fault (completes_of_ruleOf hi)

/-- Settles O52: by induction on the waiting messages; the first is taken by the first step, and what it emits goes out before the
records of the others. -/
theorem runIsTheCompositionOfTheRules : Obligations.RunIsTheCompositionOfTheRules := by
  intro s b rs hf h
  induction hq : s.cmdIn generalizing s rs with
  | nil =>
    rw [hq] at h
    cases h
    rw [List.length_nil, runSteps_zero, emitAll_nil, ← hq]
  | cons m rest ih =>
    rw [hq] at h
    obtain ⟨b₁, rs₁, rs₂, hrule, hrest, rfl⟩ := runMessages_cons_eq_some.1 h
    have hstep : step s = .next (emitAll rs₁ { s with block := b₁, cmdIn := rest }) := by
      rw [step_eq_commit hf hq, hrule, commit_done]
    have hf₁ : b₁.fault = false := (messageRule_done_fault hrule).trans hf
    rw [List.length_cons, runSteps_succ_next _ hstep,
      ih (emitAll rs₁ { s with block := b₁, cmdIn := rest }) rs₂ (by simpa using hf₁) (by simpa using hrest) (by simp),
      emitAll_append, ← emitAll_setBlock_setCmdIn]

/-! ## Idempotence (20_memory.md R64) -/

@[simp] theorem writeReg_writeReg (b : Block) (a : Addr) (v w : Mac) :
    writeReg (writeReg b a v) a w = writeReg b a w := by
  simp [writeReg]

@[simp] theorem writeMctr_writeMctr (b : Block) (a : Addr) (v w : Counter) :
    writeMctr (writeMctr b a v) a w = writeMctr b a w := by
  simp [writeMctr]

@[simp] theorem setRb_setRb (b : Block) (x y : List Byte) : setRb (setRb b x) y = setRb b y := rfl

@[simp] theorem clearTables_setRb_clearTables (b : Block) (x : List Byte) :
    clearTables (setRb (clearTables b) x) = clearTables (setRb b x) := rfl

/-- The commands of R64 answer no record, and their rule gives the same S again from the S it gives. -/
theorem ruleOf_idempotent (c : Config) {i : Instr} (b : Block)
    (h : (∃ a mac, i = .regWrite a mac) ∨ (∃ a ctr, i = .setMctr a ctr) ∨ i = .stop) :
    ∃ b', ruleOf c i b = .done b' [] ∧ ruleOf c i b' = .done b' [] := by
  obtain ⟨a, mac, rfl⟩ | ⟨a, ctr, rfl⟩ | rfl := h
  · exact ⟨writeReg b a mac, rfl, by simp [ruleOf, regWriteRule]⟩
  · exact ⟨writeMctr b a ctr, rfl, by simp [ruleOf, setMctrRule]⟩
  · cases hr : c.retainOnStop with
    | true => exact ⟨setRb b [], by simp [ruleOf, stopRule, hr]⟩
    | false => exact ⟨clearTables (setRb b []), by simp [ruleOf, stopRule, hr]⟩

/-- Settles O27: their rule is idempotent, and nothing is emitted. -/
theorem regWriteSetMctrAndStopAreIdempotent : Obligations.RegWriteSetMctrAndStopAreIdempotent := by
  intro i s t hi h
  obtain ⟨b, hrule, hagain⟩ := ruleOf_idempotent Config.cfg s.block hi
  rw [exec_eq_commit, hrule, commit_done] at h
  cases h
  rw [exec_eq_commit]
  simp [hagain]

end Sys2Proof.Machine
end

/-! SUPPORT. Messages (30_encoding.md R70 to R80): slices of a message, what the encoder writes at each place, what the decoder
can answer for each opcode; and the statements about the decoder, the encoder and the assembler that they settle. -/
section

namespace Sys2Proof.Machine

/-! ## Slices of a message (00_scope.md R13) -/

theorem slice_append_slice (m : List Byte) {i j k : Nat} (hij : i ≤ j) (hjk : j ≤ k) :
    slice m i j ++ slice m j k = slice m i k := by
  obtain ⟨d, rfl⟩ := Nat.exists_eq_add_of_le hij
  obtain ⟨e, rfl⟩ := Nat.exists_eq_add_of_le hjk
  rw [slice, slice, slice, Nat.add_assoc i d e, Nat.add_sub_cancel_left, Nat.add_sub_cancel_left, ← Nat.add_assoc i d e,
    Nat.add_sub_cancel_left, List.take_add, List.drop_drop]

theorem slice_zero_length (m : List Byte) : slice m 0 m.length = m := by
  simp [slice]

theorem slice_length_of_le {m : List Byte} {i n : Nat} (h : i + n ≤ m.length) : (slice m i (i + n)).length = n := by
  rw [slice_length]
  omega

/-- A field between two others is a slice of the whole. -/
theorem slice_of_append {x y z : List Byte} {i j : Nat} (hi : x.length = i) (hj : i + y.length = j) :
    slice (x ++ (y ++ z)) i j = y := by
  subst hi hj
  simp [slice]

theorem sliceBytes_toList_eq_slice (m : List Byte) (i n : Nat) (h : i + n ≤ m.length) :
    (sliceBytes m i n h).toList = slice m i (i + n) := by
  simp [slice]

theorem sliceBytes_eq_of_slice {m : List Byte} {i n : Nat} (h : i + n ≤ m.length) (v : Bytes n)
    (e : slice m i (i + n) = v.toList) : sliceBytes m i n h = v := by
  rw [← Vector.toList_inj, sliceBytes_toList_eq_slice, e]

/-- The two bytes of a length field are LE16 of the length read there. -/
theorem le16_u16At {m : List Byte} {i : Nat} (h : i + 2 ≤ m.length) : le16 (u16At m i) = slice m i (i + 2) := by
  have hi : i < m.length := by omega
  have hi' : i + 1 < m.length := by omega
  rw [u16At, le16_u16, slice, Nat.add_sub_cancel_left, List.drop_eq_getElem_cons hi, List.drop_eq_getElem_cons hi',
    List.getD_eq_getElem _ _ hi, List.getD_eq_getElem _ _ hi']
  rfl

theorem u16At_le (m : List Byte) (i : Nat) : u16At m i ≤ maxLength := Nat.le_of_lt_succ (u16_lt _ _)

end Sys2Proof.Machine

namespace Sys2Proof

open Sys2Proof.Machine Sys2Proof.Said

/-! ## The conditions of R80, opcode by opcode -/

theorem illegalMessage_unknown {op : Byte} {t : List Byte} (h : op ∉ [0x01, 0x02, 0x10, 0x11, 0x20]) :
    IllegalMessage (op :: t) := .inr (.inl ⟨op, rfl, h⟩)

theorem illegalMessage_chunk (t : List Byte) : IllegalMessage (0x01 :: t) ↔
    ¬(3 ≤ (0x01 :: t).length ∧ u16At (0x01 :: t) 1 ≠ 0 ∧ (0x01 :: t).length = 3 + u16At (0x01 :: t) 1) := by
  rw [not_and_or, not_and_or, not_le, not_ne_iff]
  simp [IllegalMessage]

theorem illegalMessage_stop (t : List Byte) : IllegalMessage (0x02 :: t) ↔ (0x02 :: t).length ≠ 1 := by
  simp [IllegalMessage]

theorem illegalMessage_regWrite (t : List Byte) : IllegalMessage (0x10 :: t) ↔
    (0x10 :: t).length ≠ 8 ∨ ∃ A, t[0]? = some A ∧ A.toNat / 32 ≠ 0 := by
  simp [IllegalMessage]

theorem illegalMessage_setMctr (t : List Byte) : IllegalMessage (0x11 :: t) ↔
    (0x11 :: t).length ≠ 6 ∨ ∃ A, t[0]? = some A ∧ A.toNat / 32 ≠ 0 := by
  simp [IllegalMessage]

theorem illegalMessage_decrypt (t : List Byte) : IllegalMessage (0x20 :: t) ↔
    ¬(18 ≤ (0x20 :: t).length ∧ (0x20 :: t).length = 18 + u16At (0x20 :: t) 16) ∨
      (∃ A, t[0]? = some A ∧ A.toNat / 32 ≠ 0) ∨ ∃ C, t[1]? = some C ∧ C.toNat / 4 ≠ 0 := by
  rw [not_and_or, not_le]
  simp [IllegalMessage]

/-! ## The encoder, field by field -/

@[simp] theorem encode_decryptForm (enc kind : Bool) (a : Addr) (seq : Byte) (src dst : Mac) (ct : List Byte) :
    encode (decryptForm enc kind a seq src dst ct) = encodeDecrypt enc kind a seq src dst ct := by
  cases enc <;> cases kind <;> rfl

@[simp] theorem wellFormed_decryptForm (enc kind : Bool) (a : Addr) (seq : Byte) (src dst : Mac) (ct : List Byte) :
    (decryptForm enc kind a seq src dst ct).wellFormed = ciphertextOk ct := by
  cases enc <;> cases kind <;> rfl

theorem addrByte_lt (a : Addr) : (addrByte a).toNat < 32 := by
  revert a
  decide

theorem controlByte_lt (enc kind : Bool) : (controlByte enc kind).toNat < 4 := by
  revert enc kind
  decide

/-- A message in the layout of R73 is the encoding of its field. -/
theorem encode_chunk_slice {m : List Byte} (hop : slice m 0 1 = [0x01]) (hmin : 3 ≤ m.length)
    (hlen : m.length = 3 + u16At m 1) : encode (.chunk (slice m 3 (3 + u16At m 1))) = m := by
  calc [0x01] ++ le16 (slice m 3 (3 + u16At m 1)).length ++ slice m 3 (3 + u16At m 1)
    _ = slice m 0 1 ++ slice m 1 3 ++ slice m 3 m.length := by
      rw [slice_length_of_le hlen.ge, le16_u16At hmin, ← hlen, hop]
    _ = m := by rw [slice_append_slice, slice_append_slice, slice_zero_length] <;> omega

/-- A message in the layout of R77 is the encoding of its fields. -/
theorem encodeDecrypt_slices {m : List Byte} {enc kind : Bool} {a : Addr} {seq : Byte}
    (hhead : slice m 0 4 = [0x20, addrByte a, controlByte enc kind, seq]) (hmin : 18 ≤ m.length)
    (hlen : m.length = 18 + u16At m 16) :
    encodeDecrypt enc kind a seq (sliceBytes m 4 6 (by omega)) (sliceBytes m 10 6 (by omega))
      (slice m 18 (18 + u16At m 16)) = m := by
  calc encodeDecrypt enc kind a seq _ _ _
    _ = slice m 0 4 ++ slice m 4 10 ++ slice m 10 16 ++ slice m 16 18 ++ slice m 18 m.length := by
      rw [encodeDecrypt, sliceBytes_toList_eq_slice, sliceBytes_toList_eq_slice, slice_length_of_le hlen.ge,
        le16_u16At hmin, ← hlen, hhead]
    _ = m := by
      rw [slice_append_slice, slice_append_slice, slice_append_slice, slice_append_slice, slice_zero_length] <;> omega

/-! ## What the decoder can answer -/

/-- The message meets a condition of R80 and is rejected, or it meets none and is read as a well-formed command whose encoding
it is. -/
def ReadOrIllegal (m : List Byte) : Prop :=
  (IllegalMessage m ∧ ∃ e, decode m = .error e) ∨
    (¬IllegalMessage m ∧ ∃ i, decode m = .ok i ∧ i.wellFormed = true ∧ encode i = m)

theorem readOrIllegal_chunk (t : List Byte) : ReadOrIllegal (0x01 :: t) := by
  have hop : decode (0x01 :: t) = decodeChunk (0x01 :: t) := rfl
  rw [ReadOrIllegal, hop, illegalMessage_chunk, decodeChunk]
  split
  case isFalse h => exact .inl ⟨h, _, rfl⟩
  case isTrue h =>
    obtain ⟨hmin, hpos, hlen⟩ := h
    refine .inr ⟨not_not.2 ⟨hmin, hpos, hlen⟩, _, rfl, ?_, encode_chunk_slice rfl hmin hlen⟩
    rw [Instr.wellFormed, chunkDataOk_iff, slice_length_of_le hlen.ge]
    exact ⟨Nat.one_le_iff_ne_zero.2 hpos, u16At_le _ 1⟩

theorem readOrIllegal_stop (t : List Byte) : ReadOrIllegal (0x02 :: t) := by
  have hop : decode (0x02 :: t) = decodeStop (0x02 :: t) := rfl
  rw [ReadOrIllegal, hop, illegalMessage_stop, decodeStop]
  split
  case isFalse h => exact .inl ⟨h, _, rfl⟩
  case isTrue h =>
    obtain rfl : t = [] := List.eq_nil_of_length_eq_zero (Nat.succ_injective h)
    exact .inr ⟨not_not.2 h, _, rfl, rfl, rfl⟩

/-- A message of the right length that the address byte alone decides on. -/
theorem readOrIllegal_of_addr {op A : Byte} {field : List Byte} {form : Addr → Instr}
    (hd : decode (op :: A :: field) = (decodeAddr A).map form)
    (hillegal : IllegalMessage (op :: A :: field) ↔ A.toNat / 32 ≠ 0)
    (hform : ∀ a, (form a).wellFormed = true ∧ encode (form a) = op :: addrByte a :: field) :
    ReadOrIllegal (op :: A :: field) := by
  rw [ReadOrIllegal, hillegal, hd]
  obtain ⟨a, ha, rfl⟩ | ⟨ha, hA⟩ := decodeAddr_cases A
  · rw [ha]
    exact .inr ⟨by simp [addrByte_lt], _, rfl, hform a⟩
  · rw [ha]
    exact .inl ⟨hA, _, rfl⟩

theorem readOrIllegal_regWrite (t : List Byte) : ReadOrIllegal (0x10 :: t) := by
  by_cases h : (0x10 :: t).length = 8
  · obtain ⟨A, mac, rfl⟩ := List.exists_cons_of_length_eq_add_one (Nat.succ_injective h)
    have hmac : mac.length = 6 := by simpa using h
    refine readOrIllegal_of_addr (dif_pos h) ((illegalMessage_regWrite _).trans (by simp [hmac])) fun a => ⟨rfl, ?_⟩
    rw [encode, sliceBytes_toList]
    exact congrArg ([0x10, addrByte a] ++ ·) (List.take_of_length_le hmac.le)
  · exact .inl ⟨(illegalMessage_regWrite t).2 (.inl h), _, dif_neg h⟩

theorem readOrIllegal_setMctr (t : List Byte) : ReadOrIllegal (0x11 :: t) := by
  by_cases h : (0x11 :: t).length = 6
  · obtain ⟨A, ctr, rfl⟩ := List.exists_cons_of_length_eq_add_one (Nat.succ_injective h)
    have hctr : ctr.length = 4 := by simpa using h
    refine readOrIllegal_of_addr (dif_pos h) ((illegalMessage_setMctr _).trans (by simp [hctr])) fun a => ⟨rfl, ?_⟩
    rw [encode, sliceBytes_toList]
    exact congrArg ([0x11, addrByte a] ++ ·) (List.take_of_length_le hctr.le)
  · exact .inl ⟨(illegalMessage_setMctr t).2 (.inl h), _, dif_neg h⟩

theorem readOrIllegal_decrypt (t : List Byte) : ReadOrIllegal (0x20 :: t) := by
  have hop : decode (0x20 :: t) = decodeDecrypt (0x20 :: t) := rfl
  rw [ReadOrIllegal, hop, illegalMessage_decrypt, decodeDecrypt]
  split
  case isFalse h => exact .inl ⟨.inl h, _, rfl⟩
  case isTrue h =>
    obtain ⟨hmin, hlen⟩ := h
    obtain ⟨A, C, seq, t, rfl⟩ : ∃ A C seq t', t = A :: C :: seq :: t' := by
      match t, hmin with
      | A :: C :: seq :: t', _ => exact ⟨A, C, seq, t', rfl⟩
    simp only [List.getElem_cons_succ, List.getElem_cons_zero]
    obtain ⟨a, ha, rfl⟩ | ⟨ha, hA⟩ := decodeAddr_cases A
    case inr =>
      rw [ha]
      exact .inl ⟨.inr (.inl ⟨A, rfl, hA⟩), _, rfl⟩
    obtain ⟨enc, kind, hc, rfl⟩ | ⟨hc, hC⟩ := decodeControl_cases C
    case inr =>
      rw [ha, hc]
      exact .inl ⟨.inr (.inr ⟨C, rfl, hC⟩), _, rfl⟩
    rw [ha, hc]
    refine .inr ⟨?_, _, rfl, ?_, ?_⟩
    · rw [not_or, not_not]
      exact ⟨⟨hmin, hlen⟩, by simp [addrByte_lt, controlByte_lt]⟩
    · rw [wellFormed_decryptForm, ciphertextOk_iff, slice_length_of_le hlen.ge]
      exact u16At_le _ 16
    · rw [encode_decryptForm]
      exact encodeDecrypt_slices rfl hmin hlen

/-- The decoder reads exactly the encodings of well-formed commands, and rejects the rest under a condition of R80. -/
theorem readOrIllegal (m : List Byte) : ReadOrIllegal m := by
  cases m with
  | nil => exact .inl ⟨.inl rfl, _, rfl⟩
  | cons op t =>
    by_cases hop : op ∈ [0x01, 0x02, 0x10, 0x11, 0x20]
    · simp only [List.mem_cons, List.not_mem_nil, or_false] at hop
      obtain rfl | rfl | rfl | rfl | rfl := hop
      · exact readOrIllegal_chunk t
      · exact readOrIllegal_stop t
      · exact readOrIllegal_regWrite t
      · exact readOrIllegal_setMctr t
      · exact readOrIllegal_decrypt t
    · refine .inl ⟨illegalMessage_unknown hop, .unknownOpcode, ?_⟩
      simp only [List.mem_cons, List.not_mem_nil, or_false, not_or] at hop
      simp only [decode, hop, ↓reduceIte]

/-! ## Decoding the encoding of a command -/

section DecryptFields

variable (enc kind : Bool) (a : Addr) (seq : Byte) (src dst : Mac) (ct : List Byte)

theorem slice_encodeDecrypt_src : slice (encodeDecrypt enc kind a seq src dst ct) 4 10 = src.toList := by
  rw [encodeDecrypt, List.append_assoc, List.append_assoc, List.append_assoc]
  exact slice_of_append rfl (by simp)

theorem slice_encodeDecrypt_dst : slice (encodeDecrypt enc kind a seq src dst ct) 10 16 = dst.toList := by
  rw [encodeDecrypt, List.append_assoc, List.append_assoc]
  exact slice_of_append (by simp) (by simp)

theorem slice_encodeDecrypt_ct : slice (encodeDecrypt enc kind a seq src dst ct) 18 (18 + ct.length) = ct := by
  rw [slice, encodeDecrypt, List.drop_left' (by simp), Nat.add_sub_cancel_left, List.take_length]

end DecryptFields

theorem decode_encodeDecrypt (enc kind : Bool) (a : Addr) (seq : Byte) (src dst : Mac) {ct : List Byte}
    (h : ct.length ≤ maxLength) :
    decode (encodeDecrypt enc kind a seq src dst ct) = .ok (decryptForm enc kind a seq src dst ct) := by
  have e : decode (encodeDecrypt enc kind a seq src dst ct) = decodeDecrypt (encodeDecrypt enc kind a seq src dst ct) := rfl
  have hlength := encodeDecrypt_u16At enc kind a seq src dst h
  have hA : (encodeDecrypt enc kind a seq src dst ct)[1]'(by simp; omega) = addrByte a := rfl
  have hC : (encodeDecrypt enc kind a seq src dst ct)[2]'(by simp; omega) = controlByte enc kind := rfl
  have hseq : (encodeDecrypt enc kind a seq src dst ct)[3]'(by simp; omega) = seq := rfl
  rw [e, decodeDecrypt, dif_pos ⟨by simp, by simp [hlength]⟩]
  simp only [hA, hC, hseq, decodeAddr_addrByte, decodeControl_controlByte, hlength, slice_encodeDecrypt_ct]
  rw [sliceBytes_eq_of_slice _ src (slice_encodeDecrypt_src ..), sliceBytes_eq_of_slice _ dst (slice_encodeDecrypt_dst ..)]

theorem decode_encode {i : Instr} (h : i.wellFormed = true) : decode (encode i) = .ok i := by
  cases i with
  | chunk data =>
    have hwf := (chunkDataOk_iff data).1 h
    have e : decode (encode (.chunk data)) = decodeChunk (encode (.chunk data)) := rfl
    have hlength : u16At (encode (.chunk data)) 1 = data.length := u16_of_le16_bytes hwf.2
    have hdata : slice (encode (.chunk data)) 3 (3 + data.length) = data := by
      simp [slice, encode, le16]
    have hlen : (encode (.chunk data)).length = 3 + data.length := by
      simp only [encode, List.length_append, List.length_singleton, le16_length]
    rw [e, decodeChunk, hlength, if_pos ⟨by omega, by omega, hlen⟩, hdata]
  | stop => rfl
  | regWrite a mac =>
    have e : decode (encode (.regWrite a mac)) = decodeRegWrite (encode (.regWrite a mac)) := rfl
    have hA : (encode (.regWrite a mac))[1]'(by simp [encode]) = addrByte a := rfl
    rw [e, decodeRegWrite, dif_pos (by simp [encode]), hA, decodeAddr_addrByte]
    exact congrArg (Except.ok ∘ Instr.regWrite a) (sliceBytes_eq_of_toList _ _ (by simp [encode]))
  | setMctr a ctr =>
    have e : decode (encode (.setMctr a ctr)) = decodeSetMctr (encode (.setMctr a ctr)) := rfl
    have hA : (encode (.setMctr a ctr))[1]'(by simp [encode]) = addrByte a := rfl
    rw [e, decodeSetMctr, dif_pos (by simp [encode]), hA, decodeAddr_addrByte]
    exact congrArg (Except.ok ∘ Instr.setMctr a) (sliceBytes_eq_of_toList _ _ (by simp [encode]))
  | decryptPlain a kind seq src dst ct => exact decode_encodeDecrypt false kind a seq src dst ((ciphertextOk_iff ct).1 h)
  | decryptMaster a seq src dst ct => exact decode_encodeDecrypt true false a seq src dst ((ciphertextOk_iff ct).1 h)
  | decryptWork a seq src dst ct => exact decode_encodeDecrypt true true a seq src dst ((ciphertextOk_iff ct).1 h)

/-- Settles O1: format by format. -/
theorem decodeOfEncodeGivesTheCommand : Obligations.DecodeOfEncodeGivesTheCommand := fun _ => decode_encode

/-- The messages that are read, and what as. -/
theorem decode_eq_ok {m : List Byte} {i : Instr} : decode m = .ok i ↔ i.wellFormed = true ∧ encode i = m := by
  constructor
  · intro hd
    obtain ⟨-, e, he⟩ | ⟨-, j, hj, hwf, henc⟩ := readOrIllegal m
    · cases he.symm.trans hd
    · obtain rfl := Except.ok.inj (hj.symm.trans hd)
      exact ⟨hwf, henc⟩
  · rintro ⟨hwf, rfl⟩
    exact decode_encode hwf

/-- Settles O2: the decoder rejects, or reads the command whose encoding the message is. -/
theorem legalMessageIsTheEncodingOfItsCommand : Obligations.LegalMessageIsTheEncodingOfItsCommand :=
  fun _ _ => decode_eq_ok.1

/-! ## Legal and illegal messages -/

/-- A message is rejected exactly when it meets a condition of R80. -/
theorem decode_error_iff {m : List Byte} : (∃ e, decode m = .error e) ↔ IllegalMessage m := by
  obtain ⟨hillegal, herror⟩ | ⟨hlegal, i, hok, -, -⟩ := readOrIllegal m
  · exact iff_of_true herror hillegal
  · exact iff_of_false (by simp [hok]) hlegal

/-- Settles O3: by the decoder's two answers, and the rule of a message that is rejected. -/
theorem illegalMessagesAreTheNineConditionsAndChangeNothing :
    Obligations.IllegalMessagesAreTheNineConditionsAndChangeNothing := by
  refine ⟨fun m => decode_error_iff, fun s m rest hf hq hm => ?_⟩
  obtain ⟨e, he⟩ := decode_error_iff.2 hm
  have hrule : messageRule Config.cfg m s.block = raise .illegalCommand 0x00 s.block := by rw [messageRule, he]
  rw [step_eq_commit hf hq, hrule]
  exact commit_raise .illegalCommand 0x00 { s with cmdIn := rest }

/-- The length law of `Laws.EncodedLength`, for every command. -/
theorem expectedLength_encode {i : Instr} (h : i.wellFormed = true) :
    expectedLength (encode i) = some (encode i).length := by
  cases i with
  | chunk => exact Laws.EncodedLength.chunk _ h
  | stop => exact Laws.EncodedLength.stop h
  | regWrite => exact Laws.EncodedLength.regWrite _ _ h
  | setMctr => exact Laws.EncodedLength.setMctr _ _ h
  | decryptPlain => exact Laws.EncodedLength.decryptPlain _ _ _ _ _ _ h
  | decryptMaster => exact Laws.EncodedLength.decryptMaster _ _ _ _ _ h
  | decryptWork => exact Laws.EncodedLength.decryptWork _ _ _ _ _ h

/-- Settles O4: a message that is read is an encoding, and an encoding has the length of R93. -/
theorem messageOfAnotherLengthIsIllegal : Obligations.MessageOfAnotherLengthIsIllegal := by
  intro m hlength
  obtain ⟨-, herror⟩ | ⟨-, i, -, hwf, rfl⟩ := readOrIllegal m
  · exact herror
  · exact absurd (expectedLength_encode hwf) hlength

/-- Settles O5: each message is the encoding of its command. -/
theorem wordsOfTheFormatsDecode : Obligations.WordsOfTheFormatsDecode :=
  ⟨decode_eq_ok.2 ⟨rfl, rfl⟩, decode_eq_ok.2 ⟨rfl, rfl⟩, decode_eq_ok.2 ⟨rfl, rfl⟩, decode_eq_ok.2 ⟨rfl, rfl⟩,
    decode_eq_ok.2 ⟨rfl, rfl⟩⟩

/-! ## The assembler (R91, R92) -/

/-- What the assembler makes of a line: the encodings of well-formed commands. -/
theorem assembleLine_eq_some {l : AsmLine} {ms : List (List Byte)} (h : assembleLine l = some ms) :
    ∃ is : List Instr, (∀ i ∈ is, i.wellFormed = true) ∧ ms = is.map encode := by
  unfold assembleLine at h
  split at h
  · cases h
  case h_2 is _ =>
    obtain ⟨hall, hms⟩ := Option.ite_none_right_eq_some.1 h
    exact ⟨is, List.all_eq_true.1 hall, (Option.some.inj hms).symm⟩

/-- Settles O8: an assembled line is made of encodings, and those are read. -/
theorem assembledMessagesAreLegal : Obligations.AssembledMessagesAreLegal := by
  intro l ms h m hm
  obtain ⟨is, hwf, rfl⟩ := assembleLine_eq_some h
  obtain ⟨i, hi, rfl⟩ := List.mem_map.1 hm
  exact ⟨i, decode_encode (hwf i hi)⟩

end Sys2Proof
end

/-! SUPPORT. `feed` (30_encoding.md R92), the bytes of a record and of the IV (R82, R83, R88), and which records a command
emits (R84, R85); and the statements they settle. -/
section

namespace Sys2Proof.Machine

open Sys2Proof.Said

/-! ## `feed` (R92) -/

/-- With fuel for every byte, `feedPieces` cuts the whole string, each piece but the last at `size`. -/
theorem feedPieces_eq_map_chunk {size : Nat} (hsize : 1 ≤ size) (fuel : Nat) (bytes : List Byte)
    (hfuel : bytes.length ≤ fuel) :
    ∃ pieces : List (List Byte), feedPieces size fuel bytes = pieces.map .chunk ∧ pieces.flatten = bytes ∧
      (∀ p ∈ pieces, 1 ≤ p.length ∧ p.length ≤ size) ∧ ∀ p ∈ pieces.dropLast, p.length = size := by
  induction fuel generalizing bytes with
  | zero =>
    obtain rfl := List.eq_nil_of_length_eq_zero (Nat.le_zero.1 hfuel)
    exact ⟨[], rfl, rfl, by simp, by simp⟩
  | succ fuel ih =>
    cases hb : bytes with
    | nil => exact ⟨[], rfl, rfl, by simp, by simp⟩
    | cons x t =>
      rw [← hb]
      have hpos : 1 ≤ bytes.length := by simp [hb]
      obtain ⟨pieces, hcut, hflatten, hlegal, hfull⟩ := ih (bytes.drop size) (by rw [List.length_drop]; omega)
      refine ⟨bytes.take size :: pieces, ?_, ?_, ?_, ?_⟩
      · rw [List.map_cons, ← hcut, hb]
        rfl
      · rw [List.flatten_cons, hflatten, List.take_append_drop]
      · refine List.forall_mem_cons.2 ⟨?_, hlegal⟩
        rw [List.length_take]
        omega
      · cases pieces with
        | nil => simp
        | cons p ps =>
          have hmore : 1 ≤ (bytes.drop size).length := by
            have := (hlegal p List.mem_cons_self).1
            rw [← hflatten, List.flatten_cons, List.length_append]
            omega
          rw [List.length_drop] at hmore
          rw [List.dropLast_cons_cons]
          exact List.forall_mem_cons.2 ⟨List.length_take_of_le (by omega), hfull⟩

/-- Settles O7: the string's length is fuel enough. -/
theorem feedCutsTheStreamIntoLegalChunks : Obligations.FeedCutsTheStreamIntoLegalChunks :=
  fun bytes => feedPieces_eq_map_chunk (by decide) bytes.length bytes le_rfl

/-! ## The bytes of a record (R82, R83) and the IV (R88) -/

/-- Settles O6: the length fields read back as the lengths. -/
theorem recordBytesFollowTheFormats : Obligations.RecordBytesFollowTheFormats := by
  refine ⟨fun f h => ⟨le32 f.length, u32_le32 h, ?_⟩, fun oc st p h => ?_, rfl⟩
  · rw [recordBytes, frameLengthField, if_pos h]
    rfl
  · have hmax : p.length ≤ maxLength := Nat.le_of_lt_succ h
    exact ⟨_, _, u16_of_le16_bytes hmax, rfl⟩

/-- Settles O33: the model builds the IV in that order. -/
theorem ivIsSourceDestinationCounter : Obligations.IvIsSourceDestinationCounter := fun _ _ _ => rfl

/-! ## The frames a CHUNK emits (40_reassembler.md R117) -/

theorem carveRun_frame_ne_nil {off : Nat} (hoff : 1 ≤ off) {rb rest : List Byte} {frames : List (List Byte)}
    (h : CarveRun off rb frames rest) : ∀ f ∈ frames, f ≠ [] := by
  induction h with
  | none => exact List.forall_mem_nil _
  | done rb j frames rest above holds _ _ ih =>
    obtain ⟨hj, -⟩ := List.getElem?_eq_some_iff.1 holds
    refine List.forall_mem_cons.2 ⟨?_, ih⟩
    rw [ne_eq, ← List.length_eq_zero_iff, List.length_take]
    omega

theorem unescape_ne_nil {f : List Byte} (h : f ≠ []) : unescape f ≠ [] := by
  match f with
  | [] => exact absurd rfl h
  | [x] => simp [unescape]
  | x :: y :: t =>
    rw [unescape]
    split_ifs <;> exact List.cons_ne_nil _ _

/-! ## The outcome codes and status bytes a command reports (R84, R85) -/

/-- The status bits of a direction test's answer. -/
def dirBits : Option Dir → Byte
  | none => stNoDir
  | some d => stDir d

theorem dirTest_snd (b : Block) (a : Addr) (src dst : Mac) : (dirTest b a src dst).2 = dirBits (dirTest b a src dst).1 := by
  obtain h | ⟨d, h⟩ := dirTest_cases b a src dst <;> rw [h] <;> rfl

/-- The status bits of a resynchronisation. -/
def resyncBits : List Byte := [0x00, stCtrInc, stCtrForced]

theorem resync_snd_mem (high : ResyncHigh) (ctr : Counter) (seq : Byte) : (resync high ctr seq).2 ∈ resyncBits := by
  simpa [resyncBits] using resync_status high ctr seq

/-- The status bits of a key installation: KEY_INSTALLED only where there is a direction. -/
def installBits : Option Dir → List Byte
  | none => [0x00, stShortPt]
  | some _ => [0x00, stShortPt, stKeyInstalled]

theorem zero_mem_installBits (dir : Option Dir) : 0x00 ∈ installBits dir := by
  cases dir <;> exact List.mem_cons_self

theorem install_snd_mem (b : Block) (a : Addr) (dir : Option Dir) (p : List Byte) :
    (install b a dir p).2 ∈ installBits dir := by
  obtain ⟨-, h⟩ | ⟨-, -, h⟩ | ⟨d, key, wctr, -, rfl, -, -, h⟩ := install_cases b a dir p <;> rw [h]
  · cases dir <;> simp [installBits]
  · exact zero_mem_installBits dir
  · simp [installBits]

/-- The outcome codes a command reports, each with its status bytes. -/
inductive Reported : OutcomeCode → Byte → Prop where
  | notEncrypted : Reported .notEncrypted 0x00
  | missingMasterCounter (dir : Option Dir) : Reported .missingMasterCounter (dirBits dir)
  | missingWorkKey (dir : Option Dir) : Reported .missingWorkKey (dirBits dir)
  | decoded (dir : Option Dir) {r k : Byte} (hr : r ∈ resyncBits) (hk : k ∈ installBits dir) :
      Reported .decoded (dirBits dir ||| r ||| k)

/-- What a completed command emits: non-empty frames only (none at all, for most), or one RESULT. -/
inductive Emits : List Record → Prop where
  | frames (fs : List (List Byte)) (nonempty : ∀ f ∈ fs, f ≠ []) : Emits (fs.map .frame)
  | result {oc : OutcomeCode} {st : Byte} (p : List Byte) (reported : Reported oc st) : Emits [.result oc st p]

theorem emits_of_raise {oc : OutcomeCode} {st : Byte} {b b' : Block} {rs : List Record}
    (h : raise oc st b = .done b' rs) (reported : Reported oc st) : Emits rs := by
  obtain ⟨-, rfl⟩ := raise_eq_done.1 h
  exact .result [] reported

theorem emits_of_chunkRule {c : Config} {data : List Byte} {b b' : Block} {rs : List Record}
    (h : chunkRule c data b = .done b' rs) : Emits rs := by
  obtain ⟨-, e⟩ | ⟨-, e⟩ := chunkRule_cases c data b
  · cases e.symm.trans h
  · obtain ⟨-, rfl⟩ := Effect.done.inj (e.symm.trans h)
    have hraw := carveRun_frame_ne_nil c.searchOffset.2 (carveRun_carveAll c.searchOffset.2 (b.rb ++ data))
    have hframes := Emits.frames ((carveAll c.searchOffset (b.rb ++ data)).1.map unescape)
      (List.forall_mem_map.2 fun f hf => unescape_ne_nil (hraw f hf))
    rwa [List.map_map] at hframes

theorem emits_of_decryptMasterRule {c : Config} {a : Addr} {seq : Byte} {src dst : Mac} {ct : List Byte} {b b' : Block}
    {rs : List Record} (h : decryptMasterRule c a seq src dst ct b = .done b' rs) : Emits rs := by
  obtain ⟨-, e⟩ | ⟨ctr, -, ⟨-, e⟩ | ⟨-, e⟩⟩ := decryptMasterRule_cases c a seq src dst ct b
  · rw [dirTest_snd] at e
    exact emits_of_raise (e.symm.trans h) (.missingMasterCounter _)
  · cases e.symm.trans h
  · obtain ⟨-, rfl⟩ := Effect.done.inj ((e _ _ _ _ rfl rfl rfl rfl).symm.trans h)
    rw [dirTest_snd]
    exact .result _ (.decoded _ (resync_snd_mem _ _ _) (install_snd_mem _ _ _ _))

theorem emits_of_decryptWorkRule {c : Config} {a : Addr} {seq : Byte} {src dst : Mac} {ct : List Byte} {b b' : Block}
    {rs : List Record} (h : decryptWorkRule c a seq src dst ct b = .done b' rs) : Emits rs := by
  obtain ⟨-, e⟩ | ⟨dir, key, -, -, ⟨-, e⟩ | ⟨ctr, -, ⟨-, e⟩ | ⟨-, e⟩⟩⟩ := decryptWorkRule_cases c a seq src dst ct b
  · rw [dirTest_snd] at e
    exact emits_of_raise (e.symm.trans h) (.missingWorkKey _)
  · cases e.symm.trans h
  · cases e.symm.trans h
  · obtain ⟨-, rfl⟩ := Effect.done.inj ((e _ rfl).symm.trans h)
    rw [dirTest_snd, ← BitVec.or_zero (x := dirBits _ ||| _)]
    exact .result _ (.decoded _ (resync_snd_mem _ _ _) (zero_mem_installBits _))

theorem emits_of_ruleOf {c : Config} {i : Instr} {b b' : Block} {rs : List Record} (h : ruleOf c i b = .done b' rs) :
    Emits rs := by
  cases i with
  | chunk => exact emits_of_chunkRule h
  | stop | regWrite | setMctr =>
    obtain ⟨-, rfl⟩ := Effect.done.inj h
    exact .frames [] (List.forall_mem_nil _)
  | decryptPlain => exact emits_of_raise h .notEncrypted
  | decryptMaster => exact emits_of_decryptMasterRule h
  | decryptWork => exact emits_of_decryptWorkRule h

/-- The status bits that exclude each other, and the two that are always zero (R85). -/
abbrev StatusBitsAgree (st : Byte) : Prop :=
  st &&& 0xC0 = 0x00 ∧ st &&& 0x18 ≠ 0x18 ∧ st &&& 0x03 ≠ 0x03 ∧ st &&& 0x24 ≠ 0x24 ∧ st &&& 0x14 ≠ 0x14

theorem statusBitsAgree_dirBits (dir : Option Dir) : StatusBitsAgree (dirBits dir) := by
  obtain _ | _ | _ := dir <;> decide

theorem statusBitsAgree_decoded (dir : Option Dir) :
    ∀ r ∈ resyncBits, ∀ k ∈ installBits dir, StatusBitsAgree (dirBits dir ||| r ||| k) := by
  obtain _ | _ | _ := dir <;> decide

theorem reported_statusBitsAgree {oc : OutcomeCode} {st : Byte} (h : Reported oc st) : StatusBitsAgree st := by
  cases h with
  | notEncrypted => decide
  | missingMasterCounter dir | missingWorkKey dir => exact statusBitsAgree_dirBits dir
  | decoded dir hr hk => exact statusBitsAgree_decoded dir _ hr _ hk

theorem dirBits_cases (dir : Option Dir) : dirBits dir = 0x00 ∨ dirBits dir = 0x08 ∨ dirBits dir = 0x10 := by
  obtain _ | _ | _ := dir <;> decide

theorem reported_code {oc : OutcomeCode} {st : Byte} (h : Reported oc st) :
    oc ≠ .malformed ∧ oc ≠ .lostAck ∧ oc ≠ .illegalCommand := by
  cases h <;> simp

theorem reported_status_of_notEncrypted {oc : OutcomeCode} {st : Byte} (h : Reported oc st) (hoc : oc = .notEncrypted) :
    st = 0x00 := by
  subst hoc
  cases h
  rfl

theorem reported_status_of_missing {oc : OutcomeCode} {st : Byte} (h : Reported oc st)
    (hoc : oc = .missingMasterCounter ∨ oc = .missingWorkKey) : st = 0x00 ∨ st = 0x08 ∨ st = 0x10 := by
  cases h with
  | missingMasterCounter dir | missingWorkKey dir => exact dirBits_cases dir
  | notEncrypted | decoded => simp at hoc

/-- Settles O46: frames are non-empty before and after unescaping, and every RESULT has a reported code and status. -/
theorem emittedRecordsAreLegal : Obligations.EmittedRecordsAreLegal := by
  intro c i b b' rs h
  cases emits_of_ruleOf h with
  | frames fs nonempty => simpa using nonempty
  | result p reported =>
    refine ⟨by simp, fun oc st p hmem => ?_⟩
    obtain ⟨rfl, rfl, rfl⟩ := Record.result.inj (List.mem_singleton.1 hmem)
    obtain ⟨hmalformed, hlostAck, hillegal⟩ := reported_code reported
    obtain ⟨hhigh, hdir, hctr, hshort, hkey⟩ := reported_statusBitsAgree reported
    exact ⟨rfl, hmalformed, hlostAck, hillegal, hhigh, hdir, hctr, hshort, hkey,
      reported_status_of_notEncrypted reported, reported_status_of_missing reported⟩

end Sys2Proof.Machine
end

/-! SUPPORT. Escape removal (40_reassembler.md R112, R118), the run of the carving loop on RB with bytes appended (R113, R116) and
what CHUNK does; and the statements of the family of 40_reassembler.md that they settle. -/
section

namespace Sys2Proof.Machine

open Sys2Proof.Said

/-! ## CARVE (40_reassembler.md R111) -/

/-- Settles O15: CARVE cuts where the marker search finds the marker. -/
theorem carveCutsAtTheLeastMarker : Obligations.CarveCutsAtTheLeastMarker := by
  refine fun off rb => ⟨carve_eq_none, fun f rest => ?_⟩
  simp only [carve_eq_some, and_assoc, eq_comm (a := f), eq_comm (a := rest)]
  rfl

/-! ## UNESCAPE (40_reassembler.md R112, 30_encoding.md R87) -/

theorem unescape_marker (t : List Byte) : unescape (0xFE :: 0x01 :: t) = 0xFF :: unescape t := by
  rw [unescape, if_pos ⟨rfl, rfl⟩]

theorem unescape_escape (t : List Byte) : unescape (0xFE :: 0x02 :: t) = 0xFE :: unescape t := by
  rw [unescape, if_neg (by decide), if_pos ⟨rfl, rfl⟩]

theorem unescape_plain {x y : Byte} (t : List Byte) (h : ¬(x = 0xFE ∧ (y = 0x01 ∨ y = 0x02))) :
    unescape (x :: y :: t) = x :: unescape (y :: t) := by
  rw [unescape, if_neg fun ⟨hx, hy⟩ => h ⟨hx, .inl hy⟩, if_neg fun ⟨hx, hy⟩ => h ⟨hx, .inr hy⟩]

/-- Settles O18: the equations of the pass. -/
theorem unescapeFollowsTheTable : Obligations.UnescapeFollowsTheTable :=
  ⟨rfl, fun _ => rfl, unescape_marker, unescape_escape, fun _ _ t h => unescape_plain t h⟩

/-- A string is empty, one byte, an escape sequence and a string, or a byte that starts no escape sequence and a non-empty
string: the cases of the pass, as an induction. -/
theorem unescape_induction {P : List Byte → Prop} (nil : P []) (single : ∀ x, P [x])
    (marker : ∀ t, P t → P (0xFE :: 0x01 :: t)) (escape : ∀ t, P t → P (0xFE :: 0x02 :: t))
    (plain : ∀ x y t, ¬(x = 0xFE ∧ (y = 0x01 ∨ y = 0x02)) → P (y :: t) → P (x :: y :: t)) (f : List Byte) : P f := by
  induction f using unescape.induct with
  | case1 => exact nil
  | case2 x => exact single x
  | case3 x y t h ih =>
    obtain ⟨rfl, rfl⟩ := h
    exact marker t ih
  | case4 x y t _ h ih =>
    obtain ⟨rfl, rfl⟩ := h
    exact escape t ih
  | case5 x y t hmarker hescape ih =>
    refine plain x y t ?_ ih
    rintro ⟨hx, hy | hy⟩
    · exact hmarker ⟨hx, hy⟩
    · exact hescape ⟨hx, hy⟩

/-- Escape removal writes at least one byte for every two it reads (R117). -/
theorem length_le_two_mul_length_unescape (f : List Byte) : f.length ≤ 2 * (unescape f).length := by
  induction f using unescape_induction with
  | nil => exact Nat.zero_le _
  | single x => exact Nat.le_succ 1
  | marker t ih =>
    simp only [unescape_marker, List.length_cons]
    omega
  | escape t ih =>
    simp only [unescape_escape, List.length_cons]
    omega
  | plain x y t h ih =>
    simp only [unescape_plain t h, List.length_cons] at ih ⊢
    omega

/-- Settles O20: a run cuts no empty frame, and escape removal at most halves one. -/
theorem noFrameIsEmpty : Obligations.NoFrameIsEmpty :=
  ⟨fun _ rb f hoff hf => carveRun_frame_ne_nil hoff (carveRun_carveAll hoff rb) f hf, length_le_two_mul_length_unescape⟩

/-! ## Whole-string replacement (40_reassembler.md R118) -/

theorem replacePair_pair (x y z : Byte) (t : List Byte) : replacePair x y z (x :: y :: t) = z :: replacePair x y z t := by
  rw [replacePair, if_pos ⟨rfl, rfl⟩]

/-- A byte that does not begin the pair is copied. -/
theorem replacePair_cons {x y : Byte} (z : Byte) {u : Byte} {l : List Byte} (h : ¬(u = x ∧ l.head? = some y)) :
    replacePair x y z (u :: l) = u :: replacePair x y z l := by
  cases l with
  | nil => rfl
  | cons v t => rw [replacePair, if_neg fun ⟨hu, hv⟩ => h ⟨hu, congrArg some hv⟩]

/-- The front of the replaced string is the front byte, or the replacement. -/
theorem head?_replacePair_cons (x y z v : Byte) (t : List Byte) :
    (replacePair x y z (v :: t)).head? = some v ∨ (replacePair x y z (v :: t)).head? = some z := by
  by_cases h : v = x ∧ t.head? = some y
  · obtain ⟨rfl, hy⟩ := h
    obtain ⟨t', rfl⟩ := List.head?_eq_some_iff.1 hy
    rw [replacePair_pair]
    exact .inr rfl
  · rw [replacePair_cons z h]
    exact .inl rfl

/-- Settles O19: the first replacement makes no `FE 02`, since what it writes is FF, and takes none apart, since 02 begins no
pair of its own. -/
theorem unescapeIsTwoReplacementsInSequence : Obligations.UnescapeIsTwoReplacementsInSequence := by
  intro f
  induction f using unescape_induction with
  | nil => rfl
  | single x => rfl
  | marker t ih => rw [unescape_marker, ih, replacePair_pair, replacePair_cons _ (by simp)]
  | escape t ih =>
    have hfirst : replacePair 0xFE 0x01 0xFF (0xFE :: 0x02 :: t) = 0xFE :: 0x02 :: replacePair 0xFE 0x01 0xFF t := by
      rw [replacePair_cons _ (by simp), replacePair_cons _ (by simp)]
    rw [unescape_escape, ih, hfirst, replacePair_pair]
  | plain x y t h ih =>
    have hfirst : ¬(x = 0xFE ∧ (y :: t).head? = some 0x01) := fun ⟨hx, hy⟩ => h ⟨hx, .inl (Option.some.inj hy)⟩
    have hsecond : ¬(x = 0xFE ∧ (replacePair 0xFE 0x01 0xFF (y :: t)).head? = some 0x02) := by
      rintro ⟨hx, hy⟩
      obtain hhead | hhead := head?_replacePair_cons 0xFE 0x01 0xFF y t
      · exact h ⟨hx, .inr (Option.some.inj (hhead.symm.trans hy))⟩
      · exact absurd (hhead.symm.trans hy) (by decide)
    rw [unescape_plain t h, ih, replacePair_cons _ hfirst, replacePair_cons _ hsecond]

/-! ## CHUNK (40_reassembler.md R110, R113) -/

theorem fits_mono {cap : Option ℕ+} {m n : Nat} (h : Fits cap n) (hmn : m ≤ n) : Fits cap m :=
  fun c hc => hmn.trans (h c hc)

/-- The next state of a CHUNK that fits the capacity. -/
theorem exec_chunk_of_fits {data : List Byte} {s : State}
    (h : Fits Config.cfg.rawbufCap (s.block.rb.length + data.length)) :
    exec (.chunk data) s = .next (emitAll
      ((carveAll Config.cfg.searchOffset (s.block.rb ++ data)).1.map fun f => .frame (unescape f))
      { s with block := setRb s.block (carveAll Config.cfg.searchOffset (s.block.rb ++ data)).2 }) := by
  obtain ⟨hover, -⟩ | ⟨-, hrule⟩ := chunkRule_cases Config.cfg data s.block
  · rw [overCap_eq_false.2 h] at hover
    cases hover
  · rw [exec_eq_commit, ruleOf, hrule, commit_done]

/-- Settles O16: the rule's loop is a run. -/
theorem chunkCarvesEveryCompleteFrame : Obligations.ChunkCarvesEveryCompleteFrame := by
  intro data s h
  have hrun := carveRun_carveAll Config.cfg.searchOffset.2 (s.block.rb ++ data)
  exact ⟨_, _, hrun, carveRun_carved hrun, exec_chunk_of_fits h⟩

/-! ## A stream in two chunks (40_reassembler.md R116) -/

/-- The run from RB is the only one: it is what the model's loop computes. -/
theorem carveLoop_eq_of_carveRun {off : Nat} (hoff : 1 ≤ off) {rb rest : List Byte} {frames : List (List Byte)}
    (h : CarveRun off rb frames rest) {fuel : Nat} (hfuel : rb.length ≤ fuel) :
    carveLoop off fuel rb = (frames, rest) := by
  induction h generalizing fuel with
  | none rb no =>
    cases fuel with
    | zero => rfl
    | succ fuel => simp only [carveLoop, carve_eq_none.2 no]
  | done rb j frames rest above holds least _ ih =>
    obtain ⟨hj, -⟩ := List.getElem?_eq_some_iff.1 holds
    obtain ⟨fuel, rfl⟩ := Nat.exists_eq_add_one_of_ne_zero (n := fuel) (by omega)
    have hcut : carve off rb = some (rb.take j, rb.drop j) := carve_eq_some.2 ⟨j, ⟨above, holds, least⟩, rfl, rfl⟩
    simp only [carveLoop, hcut, ih (fuel := fuel) (by rw [List.length_drop]; omega)]

/-- Bytes appended behind RB move no cut: the run goes on from what it left, with the new bytes behind it. -/
theorem carveRun_append {off : Nat} {rb rest more rest' : List Byte} {frames frames' : List (List Byte)}
    (h : CarveRun off rb frames rest) (h' : CarveRun off (rest ++ more) frames' rest') :
    CarveRun off (rb ++ more) (frames ++ frames') rest' := by
  induction h with
  | none => exact h'
  | done rb j frames rest above holds least _ ih =>
    obtain ⟨hj, -⟩ := List.getElem?_eq_some_iff.1 holds
    rw [List.cons_append, ← List.take_append_of_le_length (l₂ := more) hj.le]
    refine .done _ j _ _ above ?_ (fun i hi hij => ?_) ?_
    · rwa [List.getElem?_append_left hj]
    · rw [List.getElem?_append_left (hij.trans hj)]
      exact least i hi hij
    · rw [List.drop_append_of_le_length hj.le]
      exact ih h'

/-- Carving a stream in two chunks gives the frames and the rest of carving it in one. -/
theorem carveAll_append {off : Nat} (hoff : 1 ≤ off) (rb more : List Byte) :
    carveAll off (rb ++ more) =
      ((carveAll off rb).1 ++ (carveAll off ((carveAll off rb).2 ++ more)).1,
        (carveAll off ((carveAll off rb).2 ++ more)).2) :=
  carveLoop_eq_of_carveRun hoff
    (carveRun_append (carveRun_carveAll hoff rb) (carveRun_carveAll hoff _)) le_rfl

/-- Settles O22: the second CHUNK carves on from the first one's rest, and its frames are emitted behind the first one's. -/
theorem chunkSplitsDoNotMatter : Obligations.ChunkSplitsDoNotMatter := by
  intro x y s h
  have hoff : 1 ≤ (Config.cfg.searchOffset : Nat) := Config.cfg.searchOffset.2
  have hx : Fits Config.cfg.rawbufCap (s.block.rb.length + x.length) := fits_mono h (by omega)
  have hy : Fits Config.cfg.rawbufCap
      ((carveAll Config.cfg.searchOffset (s.block.rb ++ x)).2.length + y.length) := by
    have hle := carveRun_rest_length_le (carveRun_carveAll hoff (s.block.rb ++ x))
    rw [List.length_append] at hle
    exact fits_mono h (by omega)
  refine ⟨_, exec_chunk_of_fits hx, ?_⟩
  rw [exec_chunk_of_fits (by rwa [emitAll_block]), exec_chunk_of_fits (data := x ++ y) (by rwa [List.length_append])]
  simp only [setRb_rb, ← List.append_assoc, carveAll_append hoff (s.block.rb ++ x) y, List.map_append,
    emitAll_append, emitAll_setBlock]
  rfl

end Sys2Proof.Machine
end

/-! SUPPORT. The functions of the key engine (41_key_engine.md R144 to R147): the increment, resynchronisation and the direction
test, one equation for each case; and the statements about them. -/
section

namespace Sys2Proof.Machine

/-! ## The increment (41_key_engine.md R145) -/

theorem u32_inc32 (ctr : Counter) : u32 (inc32 ctr) = (u32 ctr + 1) % 2 ^ 32 :=
  u32_le32 (Nat.mod_lt _ (by decide))

/-- Settles O29: the increment is the number plus one, written back. -/
theorem incrementCountsModuloTwoToTheThirtyTwo : Obligations.IncrementCountsModuloTwoToTheThirtyTwo :=
  ⟨u32_inc32, by decide, by decide⟩

theorem inc32_low_toNat (ctr : Counter) : (inc32 ctr)[0].toNat = (ctr[0].toNat + 1) % 256 := by
  simp only [inc32, le32_getElem_toNat, u32]
  omega

/-- Without a carry out of the low byte the increment keeps the three high bytes. -/
theorem inc32_high {ctr : Counter} (hlow : ctr[0] ≠ 0xFF) {i : Nat} (hpos : 0 < i) (hi : i < 4) :
    (inc32 ctr)[i] = ctr[i] := by
  have hcarry : ctr[0].toNat ≠ 255 := fun e => hlow (BitVec.eq_of_toNat_eq e)
  apply BitVec.eq_of_toNat_eq
  simp only [inc32, le32_getElem_toNat, u32]
  match i, hpos, hi with
  | 1, _, _ | 2, _, _ | 3, _, _ => omega

/-! ## Resynchronisation (41_key_engine.md R144) -/

section Resync

variable {ctr : Counter} {seq : Byte}

theorem resync_in_step (high : ResyncHigh) (h : ctr[0] = seq) : resync high ctr seq = (ctr, 0x00) := if_pos h

theorem resync_one_behind (high : ResyncHigh) (h : ctr[0] ≠ seq) (hinc : (inc32 ctr)[0] = seq) :
    resync high ctr seq = (inc32 ctr, stCtrInc) := by
  rw [resync, if_neg h, if_pos hinc]

theorem resync_forced (high : ResyncHigh) (h : ctr[0] ≠ seq) (hinc : (inc32 ctr)[0] ≠ seq) :
    resync high ctr seq =
      (#v[seq, (forcedBase high ctr)[1], (forcedBase high ctr)[2], (forcedBase high ctr)[3]], stCtrForced) := by
  rw [resync, if_neg h, if_neg hinc]

/-- The two sources of the high bytes differ only by the carry out of the low byte (00_scope.md R11). -/
theorem resync_incremented_eq_original (hlow : ctr[0] ≠ 0xFF) :
    resync .incremented ctr seq = resync .original ctr seq := by
  by_cases h : ctr[0] = seq
  · rw [resync_in_step _ h, resync_in_step _ h]
  by_cases hinc : (inc32 ctr)[0] = seq
  · rw [resync_one_behind _ h hinc, resync_one_behind _ h hinc]
  · rw [resync_forced _ h hinc, resync_forced _ h hinc]
    have hbase {i : Nat} (hpos : 0 < i) (hi : i < 4) :
        (forcedBase .incremented ctr)[i] = (forcedBase .original ctr)[i] := inc32_high hlow hpos hi
    simp only [hbase Nat.one_pos, hbase Nat.two_pos, hbase (show 0 < 3 by decide)]

end Resync

/-- Settles O30: the three equations of `resync`. -/
theorem resynchronisationHasThreeCases : Obligations.ResynchronisationHasThreeCases := by
  intro high ctr seq
  refine ⟨resync_in_step high, resync_one_behind high, fun h hinc => ?_⟩
  rw [resync_forced high h hinc]
  refine ⟨rfl, rfl, fun i hi => ?_⟩
  match i, hi with
  | 1, _ | 2, _ | 3, _ => cases high <;> rfl

/-- Settles O31: in each of the three cases, with the low byte of the increment read as a number. -/
theorem resynchronisedCounterCarriesTheSequenceByte : Obligations.ResynchronisedCounterCarriesTheSequenceByte := by
  intro high ctr seq
  have hnext : (inc32 ctr)[0] = seq ↔ seq.toNat = (ctr[0].toNat + 1) % 256 := by
    rw [← inc32_low_toNat, BitVec.toNat_inj, eq_comm]
  simp only [ne_eq, ← hnext]
  rw [← and_assoc, ← and_assoc]
  refine ⟨?_, resync_incremented_eq_original⟩
  by_cases h : ctr[0] = seq
  · have hnot : (inc32 ctr)[0] ≠ seq := by
      rw [ne_eq, hnext, ← h]
      omega
    rw [resync_in_step high h]
    simp [h, hnot, stCtrForced, stCtrInc]
  by_cases hinc : (inc32 ctr)[0] = seq
  · rw [resync_one_behind high h hinc]
    simp [hinc, stCtrForced, stCtrInc]
  · rw [resync_forced high h hinc]
    simp [hinc, Ne.symm h, stCtrForced, stCtrInc]

/-! ## The direction test (41_key_engine.md R147) -/

section DirTest

variable {b : Block} {a : Addr} {src dst mac : Mac}

theorem dirTest_unregistered (h : readReg b a = none) : dirTest b a src dst = (none, stNoDir) := by
  rw [dirTest, h]

theorem dirTest_registered (h : readReg b a = some mac) :
    dirTest b a src dst =
      if src = mac then (some .out, stDir .out) else if dst = mac then (some .inn, stDir .inn) else (none, stNoDir) := by
  rw [dirTest, h]

end DirTest

/-- Settles O32: the branches of the test. -/
theorem directionTestComparesSourceThenDestination : Obligations.DirectionTestComparesSourceThenDestination := by
  intro b a src dst
  refine ⟨dirTest_unregistered, fun mac h => ?_⟩
  rw [dirTest_registered h]
  refine ⟨fun hsrc => ?_, fun hsrc hdst => ?_, fun hsrc hdst => ?_⟩
  · rw [if_pos hsrc]
    rfl
  · rw [if_neg hsrc, if_pos hdst]
    rfl
  · rw [if_neg hsrc, if_neg hdst]
    rfl

end Sys2Proof.Machine
end

/-! SUPPORT. The chained cipher (41_key_engine.md R141, R143), block by block: what CHAIN, the keystream and CFB encryption are on
a text with a full block in front and on one that is shorter than a block; and the statements about it, by induction over
the blocks. -/
section

namespace Sys2Proof.Machine

open Sys2Proof.Said

/-! ## Texts, block by block -/

/-- A byte string is shorter than a block, or it is a full block before another byte string. -/
theorem blocks_induction {P : List Byte → Prop} (short : ∀ ct, ct.length < 16 → P ct)
    (block : ∀ (y : CipherBlock) (rest : List Byte), P rest → P (y.toList ++ rest)) (ct : List Byte) : P ct := by
  by_cases h : ct.length < 16
  · exact short ct h
  · have hcut : (sliceBytes ct 0 16 (by omega)).toList ++ ct.drop 16 = ct := by
      rw [sliceBytes_toList, List.drop_zero, List.take_append_drop]
    rw [← hcut]
    exact block _ _ (blocks_induction short block (ct.drop 16))
termination_by ct.length
decreasing_by
  rw [List.length_drop]
  omega

theorem blockCount_append_block (y : CipherBlock) (rest : List Byte) :
    blockCount (y.toList ++ rest).length = blockCount rest.length + 1 := by
  simp only [blockCount, List.length_append, Vector.length_toList]
  omega

theorem blockCount_of_short {n : Nat} (hpos : 0 < n) (h : n < 16) : blockCount n = 1 := by
  simp only [blockCount]
  omega

/-- A block of the text behind a first full block. -/
theorem drop_block_append (y : CipherBlock) (rest : List Byte) (n : Nat) : (y.toList ++ rest).drop (16 + n) = rest.drop n := by
  rw [← List.drop_drop, List.drop_left' y.length_toList]

theorem getElem?_block_append (y : CipherBlock) (rest : List Byte) (n : Nat) : (y.toList ++ rest)[16 + n]? = rest[n]? := by
  rw [List.getElem?_append_right (by simp), Vector.length_toList, Nat.add_sub_cancel_left]

theorem cipherBlock_zero_of_block (y : CipherBlock) (rest : List Byte) : cipherBlock (y.toList ++ rest) 0 = y.toList := by
  rw [cipherBlock_eq, Nat.mul_zero, List.drop_zero, List.take_left' y.length_toList]

theorem cipherBlock_succ_of_block (y : CipherBlock) (rest : List Byte) (i : Nat) :
    cipherBlock (y.toList ++ rest) (i + 1) = cipherBlock rest i := by
  rw [cipherBlock_eq, cipherBlock_eq, Nat.mul_succ, Nat.add_comm, drop_block_append]

/-! ## Bytewise exclusive or (00_scope.md R14) -/

theorem xorBytes_take_right (x k : List Byte) : xorBytes x (k.take x.length) = xorBytes x k := by
  induction x generalizing k with
  | nil => rfl
  | cons u x ih =>
    cases k with
    | nil => rfl
    | cons v k => exact congrArg ((u ^^^ v) :: ·) (ih k)

theorem xorBytes_getElem? (x : List Byte) {k : CipherBlock} {j : Nat} (h : j < 16) :
    (xorBytes x k.toList)[j]? = x[j]?.map (· ^^^ k[j]) := by
  rw [xorBytes, List.getElem?_zipWith, List.getElem?_eq_getElem (l := k.toList) (by simpa using h), Vector.getElem_toList]
  cases x[j]? <;> rfl

theorem xorBytes_xorBytes {x k : List Byte} (h : x.length ≤ k.length) : xorBytes (xorBytes x k) k = x := by
  induction x generalizing k with
  | nil => rfl
  | cons u x ih =>
    cases k with
    | nil => simp at h
    | cons v k =>
      have hrest : xorBytes (xorBytes x k) k = x := ih (Nat.le_of_succ_le_succ h)
      simp only [xorBytes, List.zipWith_cons_cons, BitVec.xor_assoc, BitVec.xor_self, BitVec.xor_zero]
      exact congrArg (u :: ·) hrest

/-! ## CHAIN and its keystream -/

section Chain

variable (E : Key → CipherBlock → CipherBlock) (k : Key) (iv : CipherBlock)

theorem chain_of_short {ct : List Byte} (h : ct.length < 16) : chain E k iv ct = xorBytes ct (E k iv).toList := by
  obtain hnil | hpos := Nat.eq_zero_or_pos ct.length
  · obtain rfl := List.length_eq_zero_iff.1 hnil
    rfl
  · have hblock : cipherBlock ct 0 = ct := by
      rw [cipherBlock_eq, Nat.mul_zero, List.drop_zero, List.take_of_length_le h.le]
    rw [chain, blockCount_of_short hpos h]
    simp [plainBlock, hblock, xorBytes_take_right]

/-- Behind a first full block the keystream is that of the rest under the block as IV. -/
theorem keystream_succ_of_block (y : CipherBlock) (rest : List Byte) (i : Nat) :
    keystream E k iv (y.toList ++ rest) (i + 1) = keystream E k y rest i := by
  cases i with
  | zero => exact keystream_succ E k iv _ 0 y (cipherBlock_zero_of_block y rest).symm
  | succ i => simp only [keystream, cipherBlock_succ_of_block]

theorem plainBlock_zero_of_block (y : CipherBlock) (rest : List Byte) :
    plainBlock E k iv (y.toList ++ rest) 0 = xorBytes y.toList (E k iv).toList := by
  simp only [plainBlock, keystream_zero, cipherBlock_zero_of_block, xorBytes_take_right]

theorem plainBlock_succ_of_block (y : CipherBlock) (rest : List Byte) (i : Nat) :
    plainBlock E k iv (y.toList ++ rest) (i + 1) = plainBlock E k y rest i := by
  simp only [plainBlock, keystream_succ_of_block, cipherBlock_succ_of_block]

theorem chain_of_block (y : CipherBlock) (rest : List Byte) :
    chain E k iv (y.toList ++ rest) = xorBytes y.toList (E k iv).toList ++ chain E k y rest := by
  simp only [chain, blockCount_append_block, List.range_succ_eq_map, List.flatMap_cons, List.flatMap_map,
    plainBlock_zero_of_block, Nat.succ_eq_add_one, plainBlock_succ_of_block]

theorem keyBlock_succ_of_block (y : CipherBlock) (rest : List Byte) (i : Nat) :
    keyBlock E k iv (y.toList ++ rest) (i + 1) = keyBlock E k y rest i := by
  cases i with
  | zero =>
    have hbytes : (Vector.ofFn fun t : Fin 16 => (y.toList ++ rest).getD (16 * 0 + t) 0) = y := by
      ext t ht
      simp [List.getElem?_append]
    simp only [keyBlock, hbytes]
  | succ i =>
    have hbyte (t : Fin 16) : (y.toList ++ rest).getD (16 * (i + 1) + t) 0 = rest.getD (16 * i + t) 0 := by
      rw [List.getD_eq_getElem?_getD, List.getD_eq_getElem?_getD, Nat.mul_succ, Nat.add_right_comm, Nat.add_comm,
        getElem?_block_append]
    simp only [keyBlock, hbyte]

theorem chain_length (ct : List Byte) : (chain E k iv ct).length = ct.length := by
  induction ct using blocks_induction generalizing iv with
  | short ct h => simp [chain_of_short E k iv h, Nat.le_of_lt h]
  | block y rest ih => simp [chain_of_block, ih]

/-- Byte `j` of the plaintext (41_key_engine.md R141). -/
theorem chain_getElem? (ct : List Byte) (j : Nat) :
    (chain E k iv ct)[j]? =
      ct[j]?.map (· ^^^ (keyBlock E k iv ct (j / 16))[j % 16]'(Nat.mod_lt _ (by decide))) := by
  induction ct using blocks_induction generalizing iv j with
  | short ct h =>
    rw [chain_of_short E k iv h]
    by_cases hj : j < 16
    · simp only [xorBytes_getElem? ct hj, Nat.div_eq_of_lt hj, Nat.mod_eq_of_lt hj, keyBlock]
    · rw [List.getElem?_eq_none (by simp; omega), List.getElem?_eq_none (by omega), Option.map_none]
  | block y rest ih =>
    rw [chain_of_block]
    by_cases hj : j < 16
    · rw [List.getElem?_append_left (by simpa using hj), List.getElem?_append_left (by simpa using hj)]
      simp only [xorBytes_getElem? _ hj, Nat.div_eq_of_lt hj, Nat.mod_eq_of_lt hj, keyBlock]
    · obtain ⟨n, rfl⟩ := Nat.exists_eq_add_of_le (Nat.le_of_not_lt hj)
      have hdiv : (16 + n) / 16 = n / 16 + 1 := by omega
      rw [List.getElem?_append_right (by simp), getElem?_block_append]
      simp only [xorBytes_length, Vector.length_toList, Nat.min_self, Nat.add_sub_cancel_left, ih, hdiv,
        keyBlock_succ_of_block, Nat.add_mod_left]

end Chain

/-- Settles O34: byte by byte, by induction over the blocks of the ciphertext. -/
theorem chainDecryptsEachByteUnderItsKeystreamBlock : Obligations.ChainDecryptsEachByteUnderItsKeystreamBlock := by
  intro E k iv ct
  refine ⟨chain_length E k iv ct, fun j h => ?_⟩
  rw [chain_getElem?, List.getElem?_eq_getElem h, Option.map_some]

/-! ## Error propagation (41_key_engine.md R143) -/

/-- The keystream block of a block other than the one after block `i` does not depend on block `i` of the ciphertext. -/
theorem keyBlock_congr (E : Key → CipherBlock → CipherBlock) (k : Key) (iv : CipherBlock) {ct ct' : List Byte} {i m : Nat}
    (hsame : ∀ j, j / 16 ≠ i → ct[j]? = ct'[j]?) (hm : m ≠ i + 1) : keyBlock E k iv ct m = keyBlock E k iv ct' m := by
  cases m with
  | zero => rfl
  | succ m =>
    have hbyte (t : Fin 16) : ct.getD (16 * m + t) 0 = ct'.getD (16 * m + t) 0 := by
      rw [List.getD_eq_getElem?_getD, List.getD_eq_getElem?_getD, hsame _ (by omega)]
    simp only [keyBlock, hbyte]

/-- Settles O35: outside the two blocks neither the ciphertext byte nor its keystream block differs. -/
theorem corruptionReachesAtMostTheNextBlock : Obligations.CorruptionReachesAtMostTheNextBlock := by
  intro E k iv ct ct' i _ hsame j hi hnext
  rw [chain_getElem?, chain_getElem?, hsame j hi]
  simp only [keyBlock_congr E k iv hsame hnext]

/-! ## Full-block CFB encryption (93_implementation_defined.md G2) -/

section Cfb

variable (E : Key → CipherBlock → CipherBlock) (k : Key) (iv : CipherBlock)

theorem cfbEncrypt_of_short {p : List Byte} (h : p.length < 16) : cfbEncrypt E k iv p = xorBytes p (E k iv).toList := by
  obtain hnil | hpos := Nat.eq_zero_or_pos p.length
  · obtain rfl := List.length_eq_zero_iff.1 hnil
    rfl
  · rw [cfbEncrypt, blockCount_of_short hpos h]
    simp only [cfbEncryptFrom, List.take_of_length_le h.le]
    split <;> exact List.append_nil _

/-- The first ciphertext block is fed back into the encryption of the rest. -/
theorem cfbEncrypt_of_block (z : CipherBlock) (rest : List Byte) :
    ∃ y : CipherBlock, y.toList = xorBytes z.toList (E k iv).toList ∧
      cfbEncrypt E k iv (z.toList ++ rest) = y.toList ++ cfbEncrypt E k y rest := by
  obtain ⟨y, hy⟩ : ∃ y : CipherBlock, y.toList = xorBytes z.toList (E k iv).toList := ⟨_, Vector.toList_zipWith⟩
  refine ⟨y, hy, ?_⟩
  rw [cfbEncrypt, blockCount_append_block]
  simp only [cfbEncryptFrom, List.take_left' z.length_toList, List.drop_left' z.length_toList, ← hy,
    toBytes_eq_some.2 rfl, cfbEncrypt]

theorem chain_cfbEncrypt (p : List Byte) : chain E k iv (cfbEncrypt E k iv p) = p := by
  induction p using blocks_induction generalizing iv with
  | short p h =>
    rw [cfbEncrypt_of_short E k iv h, chain_of_short E k iv (by simp [h]), xorBytes_xorBytes (by simp; omega)]
  | block z rest ih =>
    obtain ⟨y, hy, hcfb⟩ := cfbEncrypt_of_block E k iv z rest
    rw [hcfb, chain_of_block, ih, hy, xorBytes_xorBytes (by simp)]

end Cfb

/-- Settles O36: by induction over the blocks of the text. -/
theorem chainInvertsFullBlockCfbEncryption : Obligations.ChainInvertsFullBlockCfbEncryption := chain_cfbEncrypt

end Sys2Proof.Machine
end

/-! SUPPORT. The commands of the key engine (41_key_engine.md R148 to R154): the equations of the DECRYPT rules and of key
installation, what a DECRYPT leaves alone and what it reads; and the statements about them. -/
section

namespace Sys2Proof.Machine

open Sys2Proof.Said

/-! ## Loading the registry and the counters (41_key_engine.md R149, R150) -/

/-- Settles O25: the rule writes one entry and emits nothing. -/
theorem regWriteSetsOneRegistryEntry : Obligations.RegWriteSetsOneRegistryEntry := fun a mac s =>
  ⟨{ s with block := writeReg s.block a mac }, rfl, rfl, readReg_writeReg_same s.block a mac,
    fun _ => readReg_writeReg_ne s.block mac, rfl⟩

/-- Settles O26: the rule writes one entry and emits nothing. -/
theorem setMctrSetsOneMasterCounter : Obligations.SetMctrSetsOneMasterCounter := fun a ctr s =>
  ⟨{ s with block := writeMctr s.block a ctr }, rfl, rfl, readMctr_writeMctr_same s.block a ctr,
    fun _ => readMctr_writeMctr_ne s.block ctr, rfl⟩

/-! ## Key installation (41_key_engine.md R148) -/

section Install

variable (b : Block) (a : Addr) (dir : Option Dir) (p : List Byte)

theorem install_status :
    (install b a dir p).2 = if p.length < 20 then stShortPt else if dir = none then 0x00 else stKeyInstalled := by
  obtain ⟨hlen, h⟩ | ⟨hlen, rfl, h⟩ | ⟨d, key, ctr, hlen, rfl, -, -, h⟩ := install_cases b a dir p <;> rw [h]
  · rw [if_pos hlen]
  · rw [if_neg (by omega), if_pos rfl]
  · rw [if_neg (by omega), if_neg (by simp)]

@[simp] theorem readMctr_install (a' : Addr) : readMctr (install b a dir p).1 a' = readMctr b a' := by
  rw [readMctr, install_mctr, readMctr]

/-- The entries of the installed direction: the last 16 bytes of the plaintext and the 4 before them. -/
theorem install_installed {d : Dir} (hdir : dir = some d) (hlen : 20 ≤ p.length) :
    (readWkey (install b a dir p).1 a d).map Vector.toList = some (p.drop (p.length - 16)) ∧
    (readWctr (install b a dir p).1 a d).map Vector.toList = some ((p.drop (p.length - 20)).take 4) := by
  obtain ⟨hshort, -⟩ | ⟨-, hnone, -⟩ | ⟨d', key, ctr, -, hsome, hkey, hctr, h⟩ := install_cases b a dir p
  · omega
  · cases hdir.symm.trans hnone
  · cases hdir.symm.trans hsome
    simp [h, hkey, hctr]

/-- Installation leaves every other work key and counter. -/
theorem install_elsewhere {a' : Addr} {d' : Dir} (hother : ¬(a' = a ∧ dir = some d' ∧ 20 ≤ p.length)) :
    readWkey (install b a dir p).1 a' d' = readWkey b a' d' ∧ readWctr (install b a dir p).1 a' d' = readWctr b a' d' := by
  obtain ⟨-, h⟩ | ⟨-, -, h⟩ | ⟨d, key, ctr, hlen, rfl, -, -, h⟩ := install_cases b a dir p <;> rw [h]
  · exact ⟨rfl, rfl⟩
  · exact ⟨rfl, rfl⟩
  · have hne : ¬(a' = a ∧ d' = d) := fun ⟨ha, hd⟩ => hother ⟨ha, congrArg some hd.symm, hlen⟩
    rw [readWkey_writeWctr, readWkey_writeWkey_ne _ _ hne, readWctr_writeWctr_ne _ _ hne, readWctr_writeWkey]
    exact ⟨rfl, rfl⟩

end Install

/-! ## The equations of the DECRYPT rules (41_key_engine.md R153, R154) -/

section Rules

variable {c : Config} {a : Addr} {seq : Byte} {src dst : Mac} {ct : List Byte} {b : Block}

theorem decryptMasterRule_without_counter (hctr : readMctr b a = none) :
    decryptMasterRule c a seq src dst ct b = raise .missingMasterCounter (dirTest b a src dst).2 b := by
  simp only [decryptMasterRule, hctr]

theorem decryptMasterRule_of_refused {ctr : Counter} (hctr : readMctr b a = some ctr)
    (htail : tailRefused c.tailMode ct.length = true) : decryptMasterRule c a seq src dst ct b = .refusedTail := by
  simp only [decryptMasterRule, hctr, htail, if_true]

theorem decryptMasterRule_of_taken {ctr : Counter} (hctr : readMctr b a = some ctr)
    (htail : tailRefused c.tailMode ct.length = false) {d : Option Dir × Byte} {r : Counter × Byte} {p : List Byte}
    (hd : d = dirTest b a src dst) (hr : r = resync c.resyncHigh ctr seq)
    (hp : p = chain c.encrypt c.masterKey (ivOf src dst r.1) ct) :
    decryptMasterRule c a seq src dst ct b = .done (install (writeMctr b a r.1) a d.1 p).1
      [.result .decoded (d.2 ||| r.2 ||| (install (writeMctr b a r.1) a d.1 p).2) p] := by
  subst hd hr hp
  simp only [decryptMasterRule, hctr, htail, Bool.false_eq_true, if_false]

theorem decryptWorkRule_without_key (hkey : ∀ dir, (dirTest b a src dst).1 = some dir → readWkey b a dir = none) :
    decryptWorkRule c a seq src dst ct b = raise .missingWorkKey (dirTest b a src dst).2 b := by
  cases hdir : (dirTest b a src dst).1 with
  | none => simp only [decryptWorkRule, hdir]
  | some dir => simp only [decryptWorkRule, hdir, hkey dir hdir]

section Keyed

variable {dir : Dir} {key : Key} {ctr : Counter} (hdir : (dirTest b a src dst).1 = some dir)
  (hkey : readWkey b a dir = some key) (hctr : readWctr b a dir = some ctr)

include hdir hkey hctr

theorem decryptWorkRule_of_refused (htail : tailRefused c.tailMode ct.length = true) :
    decryptWorkRule c a seq src dst ct b = .refusedTail := by
  simp only [decryptWorkRule, hdir, hkey, hctr, htail, if_true]

theorem decryptWorkRule_of_taken (htail : tailRefused c.tailMode ct.length = false) {r : Counter × Byte}
    (hr : r = resync c.resyncHigh ctr seq) :
    decryptWorkRule c a seq src dst ct b = .done (writeWctr b a dir (inc32 r.1))
      [.result .decoded ((dirTest b a src dst).2 ||| r.2) (chain c.encrypt key (ivOf src dst r.1) ct)] := by
  subst hr
  simp only [decryptWorkRule, hdir, hkey, hctr, htail, Bool.false_eq_true, if_false]

end Keyed

end Rules

/-! ## What the three forms do -/

/-- Settles O37: the rule raises the outcome, whatever the operands. -/
theorem decryptPlainReportsNotEncrypted : Obligations.DecryptPlainReportsNotEncrypted :=
  fun _ _ _ _ _ _ s => ⟨_, commit_raise .notEncrypted 0x00 s, rfl, emit_block _ s⟩

/-- Settles O38. -/
theorem masterPathWithoutCounterIsReported : Obligations.MasterPathWithoutCounterIsReported := by
  intro a seq src dst ct s hctr
  rw [exec_eq_commit, ruleOf, decryptMasterRule_without_counter hctr, commit_raise]

/-- Settles O39: the rule stores the resynchronised counter and installs, and the installation's own lemmas say what that is. -/
theorem masterPathDecryptsStoresTheCounterAndInstallsTheKey :
    Obligations.MasterPathDecryptsStoresTheCounterAndInstallsTheKey := by
  intro a seq src dst ct s ctr hctr htail d r p hd hr hp
  have hrule := decryptMasterRule_of_taken hctr (tailRefused_eq_false.2 htail) hd hr hp
  refine ⟨_, by rw [exec_eq_commit, ruleOf, hrule, commit_done], ?_⟩
  rw [emitAll_cons, emitAll_nil, emit_block, install_status, install_rb, install_fault, install_reg, readMctr_install]
  refine ⟨rfl, readMctr_writeMctr_same _ _ _, fun a' ha => ?_, fun dir hdir hlen => install_installed _ _ _ _ hdir hlen,
    fun a' dir hother => install_elsewhere _ _ _ _ hother, rfl, rfl, rfl⟩
  rw [readMctr_install, readMctr_writeMctr_ne _ _ ha]

/-- Settles O40. -/
theorem workPathWithoutKeyIsReported : Obligations.WorkPathWithoutKeyIsReported := by
  intro a seq src dst ct s hkey
  rw [exec_eq_commit, ruleOf, decryptWorkRule_without_key hkey, commit_raise]

/-- Settles O41: the rule writes one work counter and nothing else. -/
theorem workPathDecryptsAndAdvancesTheCounter : Obligations.WorkPathDecryptsAndAdvancesTheCounter := by
  intro a seq src dst ct s dir st key ctr hdir hkey hctr htail r hr
  have hrule := decryptWorkRule_of_taken (congrArg Prod.fst hdir) hkey hctr (tailRefused_eq_false.2 htail) hr
  refine ⟨_, by rw [exec_eq_commit, ruleOf, hrule, commit_done], ?_⟩
  rw [emitAll_cons, emitAll_nil, emit_block, hdir]
  exact ⟨rfl, readWctr_writeWctr_same _ _ _ _, fun a' dir' hother => readWctr_writeWctr_ne _ _ hother, rfl⟩

/-! ## Refused tails (41_key_engine.md R142, 60_exceptions.md R204) -/

theorem partialTailPastKeyChecks_decryptMaster {a : Addr} {seq : Byte} {src dst : Mac} {ct : List Byte} {b : Block} :
    PartialTailPastKeyChecks (.decryptMaster a seq src dst ct) b ↔ ct.length % 16 ≠ 0 ∧ readMctr b a ≠ none := by
  constructor
  · rintro (⟨_, _, _, _, _, e, h⟩ | ⟨_, _, _, _, _, _, e, -⟩)
    · cases e
      exact h
    · cases e
  · exact fun h => .inl ⟨a, seq, src, dst, ct, rfl, h⟩

theorem partialTailPastKeyChecks_decryptWork {a : Addr} {seq : Byte} {src dst : Mac} {ct : List Byte} {b : Block} :
    PartialTailPastKeyChecks (.decryptWork a seq src dst ct) b ↔
      ∃ dir, ct.length % 16 ≠ 0 ∧ (dirTest b a src dst).1 = some dir ∧ readWkey b a dir ≠ none ∧
        readWctr b a dir ≠ none := by
  constructor
  · rintro (⟨_, _, _, _, _, e, -⟩ | ⟨_, _, _, _, _, dir, e, h⟩)
    · cases e
    · cases e
      exact ⟨dir, h⟩
  · exact fun ⟨dir, h⟩ => .inr ⟨a, seq, src, dst, ct, dir, rfl, h⟩

theorem refused_of_decryptMasterRule {c : Config} {a : Addr} {seq : Byte} {src dst : Mac} {ct : List Byte} {b : Block}
    (h : decryptMasterRule c a seq src dst ct b = .refusedTail) :
    tailRefused c.tailMode ct.length = true ∧ readMctr b a ≠ none := by
  obtain ⟨-, e⟩ | ⟨ctr, hctr, ⟨htail, -⟩ | ⟨-, e⟩⟩ := decryptMasterRule_cases c a seq src dst ct b
  · cases e.symm.trans h
  · exact ⟨htail, by simp [hctr]⟩
  · cases (e _ _ _ _ rfl rfl rfl rfl).symm.trans h

theorem refused_of_decryptWorkRule {c : Config} {a : Addr} {seq : Byte} {src dst : Mac} {ct : List Byte} {b : Block}
    (h : decryptWorkRule c a seq src dst ct b = .refusedTail) :
    tailRefused c.tailMode ct.length = true ∧
      ∃ dir, (dirTest b a src dst).1 = some dir ∧ readWkey b a dir ≠ none ∧ readWctr b a dir ≠ none := by
  obtain ⟨-, e⟩ | ⟨dir, key, hdir, hkey, ⟨-, e⟩ | ⟨ctr, hctr, ⟨htail, -⟩ | ⟨-, e⟩⟩⟩ :=
    decryptWorkRule_cases c a seq src dst ct b
  · cases e.symm.trans h
  · cases e.symm.trans h
  · exact ⟨htail, dir, hdir, by simp [hkey], by simp [hctr]⟩
  · cases (e _ rfl).symm.trans h

theorem refused_of_ruleOf {c : Config} {i : Instr} {b : Block} (h : ruleOf c i b = .refusedTail) :
    c.tailMode = .refuse ∧ PartialTailPastKeyChecks i b := by
  cases i with
  | chunk data =>
    obtain ⟨-, e⟩ | ⟨-, e⟩ := chunkRule_cases c data b <;> cases e.symm.trans h
  | stop | regWrite | setMctr | decryptPlain => cases h
  | decryptMaster a seq src dst ct =>
    obtain ⟨htail, hctr⟩ := refused_of_decryptMasterRule h
    obtain ⟨hmode, hlen⟩ := tailRefused_eq_true.1 htail
    exact ⟨hmode, partialTailPastKeyChecks_decryptMaster.2 ⟨hlen, hctr⟩⟩
  | decryptWork a seq src dst ct =>
    obtain ⟨htail, dir, hpast⟩ := refused_of_decryptWorkRule h
    obtain ⟨hmode, hlen⟩ := tailRefused_eq_true.1 htail
    exact ⟨hmode, partialTailPastKeyChecks_decryptWork.2 ⟨dir, hlen, hpast⟩⟩

theorem ruleOf_refused {c : Config} {i : Instr} {b : Block} (hmode : c.tailMode = .refuse)
    (h : PartialTailPastKeyChecks i b) : ruleOf c i b = .refusedTail := by
  obtain ⟨a, seq, src, dst, ct, rfl, hlen, hctr⟩ | ⟨a, seq, src, dst, ct, dir, rfl, hlen, hdir, hkey, hctr⟩ := h
  · obtain ⟨ctr, hctr⟩ := Option.ne_none_iff_exists'.1 hctr
    exact decryptMasterRule_of_refused hctr (tailRefused_eq_true.2 ⟨hmode, hlen⟩)
  · obtain ⟨key, hkey⟩ := Option.ne_none_iff_exists'.1 hkey
    obtain ⟨ctr, hctr⟩ := Option.ne_none_iff_exists'.1 hctr
    exact decryptWorkRule_of_refused hdir hkey hctr (tailRefused_eq_true.2 ⟨hmode, hlen⟩)

theorem commit_eq_refused {e : Effect} {s : State} : commit e s = .refused .partialTail ↔ e = .refusedTail := by
  cases e <;> simp [commit]

/-- Settles O42: only a refused tail makes a rule refuse, and delivering the answer adds no refusal. -/
theorem partialTailIsRefusedOnlyWhenConfigured : Obligations.PartialTailIsRefusedOnlyWhenConfigured := by
  constructor
  · exact fun c i b => ⟨refused_of_ruleOf, fun ⟨hmode, h⟩ => ruleOf_refused hmode h⟩
  · intro i s
    rw [exec_eq_commit, commit_eq_refused]

/-! ## A DECRYPT and its address (41_key_engine.md R151) -/

section Agreement

variable {a a' : Addr} {b b' : Block}

theorem agreeAt_refl (a : Addr) (b : Block) : AgreeAt a b b := ⟨rfl, rfl, fun _ => ⟨rfl, rfl⟩⟩

theorem agreeAt_trans {b'' : Block} (h : AgreeAt a b b') (h' : AgreeAt a b' b'') : AgreeAt a b b'' := by
  obtain ⟨hreg, hmctr, hwork⟩ := h
  obtain ⟨hreg', hmctr', hwork'⟩ := h'
  refine ⟨hreg.trans hreg', hmctr.trans hmctr', fun d => ?_⟩
  obtain ⟨hkey, hctr⟩ := hwork d
  obtain ⟨hkey', hctr'⟩ := hwork' d
  exact ⟨hkey.trans hkey', hctr.trans hctr'⟩

theorem agreeAt_writeMctr_elsewhere (h : a' ≠ a) (b : Block) (v : Counter) : AgreeAt a' b (writeMctr b a v) :=
  ⟨rfl, (readMctr_writeMctr_ne b v h).symm, fun _ => ⟨rfl, rfl⟩⟩

theorem agreeAt_writeWkey_elsewhere (h : a' ≠ a) (b : Block) (d : Dir) (v : Key) : AgreeAt a' b (writeWkey b a d v) :=
  ⟨rfl, rfl, fun _ => ⟨(readWkey_writeWkey_ne b v fun e => h e.1).symm, rfl⟩⟩

theorem agreeAt_writeWctr_elsewhere (h : a' ≠ a) (b : Block) (d : Dir) (v : Counter) : AgreeAt a' b (writeWctr b a d v) :=
  ⟨rfl, rfl, fun _ => ⟨rfl, (readWctr_writeWctr_ne b v fun e => h e.1).symm⟩⟩

theorem agreeAt_writeMctr (h : AgreeAt a b b') (v : Counter) : AgreeAt a (writeMctr b a v) (writeMctr b' a v) := by
  obtain ⟨hreg, -, hwork⟩ := h
  exact ⟨hreg, by simp, hwork⟩

theorem agreeAt_writeWkey (h : AgreeAt a b b') (d : Dir) (v : Key) :
    AgreeAt a (writeWkey b a d v) (writeWkey b' a d v) := by
  obtain ⟨hreg, hmctr, hwork⟩ := h
  refine ⟨hreg, hmctr, fun d' => ?_⟩
  obtain ⟨hkey, hctr⟩ := hwork d'
  refine ⟨?_, hctr⟩
  by_cases hd : d' = d
  · subst hd
    simp
  · rw [readWkey_writeWkey_ne b v fun e => hd e.2, readWkey_writeWkey_ne b' v fun e => hd e.2, hkey]

theorem agreeAt_writeWctr (h : AgreeAt a b b') (d : Dir) (v : Counter) :
    AgreeAt a (writeWctr b a d v) (writeWctr b' a d v) := by
  obtain ⟨hreg, hmctr, hwork⟩ := h
  refine ⟨hreg, hmctr, fun d' => ?_⟩
  obtain ⟨hkey, hctr⟩ := hwork d'
  refine ⟨hkey, ?_⟩
  by_cases hd : d' = d
  · subst hd
    simp
  · rw [readWctr_writeWctr_ne b v fun e => hd e.2, readWctr_writeWctr_ne b' v fun e => hd e.2, hctr]

/-- What is installed comes from the plaintext alone. -/
theorem agreeAt_install (h : AgreeAt a b b') (dir : Option Dir) (p : List Byte) :
    AgreeAt a (install b a dir p).1 (install b' a dir p).1 := by
  unfold install
  split
  · cases dir with
    | none => exact h
    | some d => exact agreeAt_writeWctr (agreeAt_writeWkey h d _) d _
  · exact h

end Agreement

/-- A completed DECRYPT leaves every entry of the other addresses. -/
theorem completes_agreeAt_elsewhere {c : Config} {i : Instr} {a a' : Addr} {b b' : Block} (h : Completes c b i b')
    (hi : decryptAddr i = some a) (hne : a' ≠ a) : AgreeAt a' b b' := by
  cases h with
  | chunk | stopRetaining | stopClearing | regWrite | setMctr => cases hi
  | decryptPlain | masterRaised | workRaised => exact agreeAt_refl a' b
  | masterStored a₀ seq src dst ct ctr =>
    cases hi
    exact agreeAt_writeMctr_elsewhere hne b ctr
  | masterInstalled a₀ seq src dst ct ctr d key wctr =>
    cases hi
    exact agreeAt_trans (agreeAt_writeMctr_elsewhere hne b ctr)
      (agreeAt_trans (agreeAt_writeWkey_elsewhere hne _ d key) (agreeAt_writeWctr_elsewhere hne _ d wctr))
  | workAdvanced a₀ seq src dst ct d ctr =>
    cases hi
    exact agreeAt_writeWctr_elsewhere hne b d ctr

section Reads

variable {c : Config} {a : Addr} {seq : Byte} {src dst : Mac} {ct : List Byte} {b₁ b₂ b₁' : Block} {rs : List Record}

theorem decryptMasterRule_reads_own_address (hab : AgreeAt a b₁ b₂)
    (h : decryptMasterRule c a seq src dst ct b₁ = .done b₁' rs) :
    ∃ b₂', decryptMasterRule c a seq src dst ct b₂ = .done b₂' rs ∧ AgreeAt a b₁' b₂' := by
  have ⟨hreg, hmctr, _⟩ := hab
  have hd : dirTest b₁ a src dst = dirTest b₂ a src dst := dirTest_congr src dst hreg
  cases hctr : readMctr b₁ a with
  | none =>
    rw [decryptMasterRule_without_counter hctr, raise_eq_done] at h
    obtain ⟨rfl, rfl⟩ := h
    rw [decryptMasterRule_without_counter (hmctr.symm.trans hctr), ← hd]
    exact ⟨b₂, rfl, hab⟩
  | some ctr =>
    cases htail : tailRefused c.tailMode ct.length with
    | true => cases (decryptMasterRule_of_refused hctr htail).symm.trans h
    | false =>
      obtain ⟨rfl, rfl⟩ := Effect.done.inj ((decryptMasterRule_of_taken hctr htail hd.symm rfl rfl).symm.trans h)
      refine ⟨_, ?_, agreeAt_install (agreeAt_writeMctr hab _) _ _⟩
      rw [decryptMasterRule_of_taken (hmctr.symm.trans hctr) htail rfl rfl rfl, install_status, install_status]

theorem decryptWorkRule_reads_own_address (hab : AgreeAt a b₁ b₂)
    (h : decryptWorkRule c a seq src dst ct b₁ = .done b₁' rs) :
    ∃ b₂', decryptWorkRule c a seq src dst ct b₂ = .done b₂' rs ∧ AgreeAt a b₁' b₂' := by
  have ⟨hreg, _, hwork⟩ := hab
  have hd : dirTest b₁ a src dst = dirTest b₂ a src dst := dirTest_congr src dst hreg
  obtain ⟨hkey, e⟩ | ⟨dir, key, hdir, hkey, ⟨-, e⟩ | ⟨ctr, hctr, ⟨-, e⟩ | ⟨htail, e⟩⟩⟩ :=
    decryptWorkRule_cases c a seq src dst ct b₁
  · obtain ⟨rfl, rfl⟩ := raise_eq_done.1 (e.symm.trans h)
    have hkey₂ : ∀ dir, (dirTest b₂ a src dst).1 = some dir → readWkey b₂ a dir = none := by
      intro dir hdir
      obtain ⟨hsame, -⟩ := hwork dir
      rw [← hsame, hkey dir (by rw [hd, hdir])]
    rw [decryptWorkRule_without_key hkey₂, ← hd]
    exact ⟨b₂, rfl, hab⟩
  · cases e.symm.trans h
  · cases e.symm.trans h
  · obtain ⟨rfl, rfl⟩ := Effect.done.inj ((e _ rfl).symm.trans h)
    obtain ⟨hkeys, hctrs⟩ := hwork dir
    rw [hd] at hdir ⊢
    exact ⟨_, decryptWorkRule_of_taken hdir (hkeys.symm.trans hkey) (hctrs.symm.trans hctr) htail rfl,
      agreeAt_writeWctr hab dir _⟩

end Reads

/-- Settles O44: a completed DECRYPT writes at its address only, and of S its rule reads the entries there. -/
theorem decryptReadsAndWritesOnlyItsOwnAddress : Obligations.DecryptReadsAndWritesOnlyItsOwnAddress := by
  intro c i a b₁ b₂ b₁' rs hi hab h
  refine ⟨fun a' hne => completes_agreeAt_elsewhere (completes_of_ruleOf h) hi hne, ?_⟩
  cases i with
  | chunk | stop | regWrite | setMctr => cases hi
  | decryptPlain =>
    obtain ⟨rfl, rfl⟩ := raise_eq_done.1 h
    exact ⟨b₂, rfl, hab⟩
  | decryptMaster =>
    cases hi
    exact decryptMasterRule_reads_own_address hab h
  | decryptWork =>
    cases hi
    exact decryptWorkRule_reads_own_address hab h

end Sys2Proof.Machine
end

/-! SUPPORT. Session control (42_session.md R190, R191): the equations of STOP's rule under the two retention policies, what each
leaves in S; and the statements about STOP. -/
section

namespace Sys2Proof.Machine

/-! ## STOP under each retention policy (42_session.md R190) -/

theorem stopRule_of_retaining {c : Config} (hretain : c.retainOnStop = true) (b : Block) :
    stopRule c b = .done (setRb b []) [] := by
  rw [stopRule, if_pos hretain]

theorem stopRule_of_clearing {c : Config} (hclear : c.retainOnStop = false) (b : Block) :
    stopRule c b = .done (clearTables (setRb b [])) [] := by
  rw [stopRule, if_neg (Bool.eq_false_iff.1 hclear)]

/-- STOP's rule emits nothing, so a step of STOP replaces S and leaves the channels alone. -/
theorem exec_stop_of_stopRule {s : State} {b : Block} (h : stopRule Config.cfg s.block = .done b []) :
    exec .stop s = .next { s with block := b } :=
  calc exec .stop s
    _ = commit (stopRule Config.cfg s.block) s := exec_eq_commit .stop s
    _ = .next { s with block := b } := by rw [h, commit_done, emitAll_nil]

/-- Settles O23: by the two retention policies. -/
theorem stopEndsTheSession : Obligations.StopEndsTheSession := by
  intro s
  cases hpolicy : Config.cfg.retainOnStop with
  | true =>
    refine ⟨_, exec_stop_of_stopRule (stopRule_of_retaining hpolicy s.block), rfl, rfl, rfl, fun a => ?_⟩
    simp
  | false =>
    refine ⟨_, exec_stop_of_stopRule (stopRule_of_clearing hpolicy s.block), rfl, rfl, rfl, fun a => ?_⟩
    simp

/-! ## The next session (42_session.md R191) -/

/-- With every table cleared and RB empty, FAULT is all that is left of S. -/
theorem clearTables_setRb_nil (b : Block) : clearTables (setRb b []) = { Block.reset with fault := b.fault } := rfl

/-- Settles O24: with FAULT clear, clearing leaves nothing of S and retaining empties RB only. -/
theorem nextSessionStartsAsRetentionSays : Obligations.NextSessionStartsAsRetentionSays := by
  intro c b hfault
  refine ⟨fun hclear => ?_, fun hretain => stopRule_of_retaining hretain b⟩
  calc ruleOf c .stop b
    _ = .done (clearTables (setRb b [])) [] := stopRule_of_clearing hclear b
    _ = .done State.reset.block [] := by rw [clearTables_setRb_nil, hfault]; rfl

end Sys2Proof.Machine
end

/-! SUPPORT. How a command can stop the machine (60_exceptions.md R203 to R205): what a rule can answer, when it is the capacity
fault, and that paired keys and counters exclude the fault of log entry 6; and the statements about the stops. -/
section

namespace Sys2Proof.Machine

/-! ## What a rule can answer (60_exceptions.md R203 to R205) -/

theorem decryptMasterRule_done_or_refused (c : Config) (a : Addr) (seq : Byte) (src dst : Mac) (ct : List Byte) (b : Block) :
    (∃ b' rs, decryptMasterRule c a seq src dst ct b = .done b' rs) ∨
    decryptMasterRule c a seq src dst ct b = .refusedTail := by
  obtain ⟨-, e⟩ | ⟨ctr, -, ⟨-, e⟩ | ⟨-, e⟩⟩ := decryptMasterRule_cases c a seq src dst ct b
  · exact .inl ⟨_, _, e⟩
  · exact .inr e
  · exact .inl ⟨_, _, e _ _ _ _ rfl rfl rfl rfl⟩

theorem decryptWorkRule_done_or_stops (c : Config) (a : Addr) (seq : Byte) (src dst : Mac) (ct : List Byte) (b : Block) :
    (∃ b' rs, decryptWorkRule c a seq src dst ct b = .done b' rs) ∨
    decryptWorkRule c a seq src dst ct b = .refusedTail ∨
    (decryptWorkRule c a seq src dst ct b = .counterMissing ∧ ∃ d, readWkey b a d ≠ none ∧ readWctr b a d = none) := by
  obtain ⟨-, e⟩ | ⟨d, key, -, hkey, ⟨hctr, e⟩ | ⟨ctr, -, ⟨-, e⟩ | ⟨-, e⟩⟩⟩ :=
    decryptWorkRule_cases c a seq src dst ct b
  · exact .inl ⟨_, _, e⟩
  · exact .inr (.inr ⟨e, d, by simp [hkey], hctr⟩)
  · exact .inr (.inl e)
  · exact .inl ⟨_, _, e _ rfl⟩

/-- What a command's rule can answer: it completes, or it is a CHUNK past the capacity (R203), a refused tail (R204), or meets a
work key without its counter (log entry 6). -/
theorem ruleOf_cases (c : Config) (i : Instr) (b : Block) :
    (∃ b' rs, ruleOf c i b = .done b' rs) ∨
    (ruleOf c i b = .overflow { b with fault := true } ∧
      ∃ data n, i = .chunk data ∧ c.rawbufCap = some n ∧ (n : Nat) < b.rb.length + data.length) ∨
    ruleOf c i b = .refusedTail ∨
    (ruleOf c i b = .counterMissing ∧ ∃ a d, readWkey b a d ≠ none ∧ readWctr b a d = none) := by
  cases i with
  | chunk data =>
    obtain ⟨hover, e⟩ | ⟨-, e⟩ := chunkRule_cases c data b
    · obtain ⟨n, hcap, hlen⟩ := overCap_eq_true.1 hover
      exact .inr (.inl ⟨e, data, n, rfl, hcap, hlen⟩)
    · exact .inl ⟨_, _, e⟩
  | stop | regWrite | setMctr | decryptPlain => exact .inl ⟨_, _, rfl⟩
  | decryptMaster a seq src dst ct =>
    obtain hdone | e := decryptMasterRule_done_or_refused c a seq src dst ct b
    · exact .inl hdone
    · exact .inr (.inr (.inl e))
  | decryptWork a seq src dst ct =>
    obtain hdone | e | ⟨e, hunpaired⟩ := decryptWorkRule_done_or_stops c a seq src dst ct b
    · exact .inl hdone
    · exact .inr (.inr (.inl e))
    · exact .inr (.inr (.inr ⟨e, a, hunpaired⟩))

/-! ## The capacity fault (60_exceptions.md R203) -/

/-- Only CHUNK's rule answers the capacity fault, only past the capacity, and it changes FAULT alone. -/
theorem ruleOf_eq_overflow {c : Config} {i : Instr} {b b' : Block} :
    ruleOf c i b = .overflow b' ↔ ∃ data n, i = .chunk data ∧ c.rawbufCap = some n ∧
      (n : Nat) < b.rb.length + data.length ∧ b' = { b with fault := true } := by
  constructor
  · intro h
    obtain ⟨_, _, e⟩ | ⟨e, data, n, hi, hcap, hlen⟩ | e | ⟨e, -⟩ := ruleOf_cases c i b
    · cases e.symm.trans h
    · exact ⟨data, n, hi, hcap, hlen, (Effect.overflow.inj (e.symm.trans h)).symm⟩
    · cases e.symm.trans h
    · cases e.symm.trans h
  · rintro ⟨data, n, rfl, hcap, hlen, rfl⟩
    exact if_pos (overCap_eq_true.2 ⟨n, hcap, hlen⟩)

theorem commit_eq_overflow {e : Effect} {s : State} {b : Block} :
    commit e s = .fault (.rawBufOverflow { s with block := b }) ↔ e = .overflow b := by
  cases e <;> simp [commit]

/-- Settles O17: delivering an answer adds no capacity fault, and FAULT is what the step looks at first. -/
theorem chunkPastTheCapacityFaults : Obligations.ChunkPastTheCapacityFaults := by
  refine ⟨fun c n data b hcap hlen => ruleOf_eq_overflow.2 ⟨data, n, rfl, hcap, hlen, rfl⟩, fun data s => ?_,
    fun s hf => ⟨step_of_fault hf, rfl⟩, fun c i b b' hcap h => ?_⟩
  · rw [exec_eq_commit, commit_eq_overflow, ruleOf_eq_overflow]
    constructor
    · rintro ⟨_, n, ⟨⟩, hcap, hlen, -⟩
      exact ⟨n, hcap, hlen⟩
    · rintro ⟨n, hcap, hlen⟩
      exact ⟨data, n, rfl, hcap, hlen, rfl⟩
  · obtain ⟨-, n, -, hsome, -, -⟩ := ruleOf_eq_overflow.1 h
    cases hcap.symm.trans hsome

/-! ## The fault of log entry 6 (10_state.md R29) -/

theorem ruleOf_ne_counterMissing {c : Config} {b : Block} (hpaired : KeysPaired b) (i : Instr) :
    ruleOf c i b ≠ .counterMissing := by
  intro h
  obtain ⟨_, _, e⟩ | ⟨e, -⟩ | e | ⟨-, a, d, hkey, hctr⟩ := ruleOf_cases c i b
  · cases e.symm.trans h
  · cases e.symm.trans h
  · cases e.symm.trans h
  · exact hkey ((hpaired a d).2 hctr)

/-! ## The stops of a good state (60_exceptions.md R205) -/

/-- Where keys and counters are paired, a command completes or stops as the spec allows: by what its rule answers. -/
theorem exec_next_or_allowedStop {s : State} (hpaired : KeysPaired s.block) (i : Instr) :
    (∃ t, exec i s = .next t) ∨ AllowedStop (exec i s) := by
  rw [exec_eq_commit]
  cases hrule : ruleOf Config.cfg i s.block with
  | done b rs => exact .inl ⟨_, commit_done b rs s⟩
  | overflow b =>
    obtain ⟨-, n, -, hcap, -, rfl⟩ := ruleOf_eq_overflow.1 hrule
    exact .inr (.overflow n _ hcap rfl)
  | refusedTail =>
    obtain ⟨hmode, -⟩ := refused_of_ruleOf hrule
    exact .inr (.partialTail hmode)
  | counterMissing => exact absurd hrule (ruleOf_ne_counterMissing hpaired i)

theorem takeMessage_next_or_allowedStop {s : State} (hpaired : KeysPaired s.block) (m : List Byte) :
    (∃ t, takeMessage m s = .next t) ∨ AllowedStop (takeMessage m s) := by
  unfold takeMessage
  cases decode m with
  | error e => exact .inl ⟨_, commit_raise .illegalCommand 0x00 s⟩
  | ok i => exact exec_next_or_allowedStop hpaired i

/-- With FAULT clear and a message waiting, a step takes that message out of CMD_IN (20_memory.md R58). -/
theorem step_eq_takeMessage {s : State} {m : List Byte} {rest : List (List Byte)} (hf : s.block.fault = false)
    (hq : s.cmdIn = m :: rest) : step s = takeMessage m { s with cmdIn := rest } :=
  (step_eq_commit hf hq).trans (takeMessage_eq_commit m { s with cmdIn := rest }).symm

/-- Settles O50: FAULT is clear, so a step waits or takes a message, and S is the same without the message. -/
theorem goodStatesStopOnlyAsTheSpecAllows : Obligations.GoodStatesStopOnlyAsTheSpecAllows := by
  rintro s ⟨hfault, hpaired, -, -⟩
  cases hq : s.cmdIn with
  | nil => exact .inl ⟨s, step_of_empty hfault hq⟩
  | cons m rest =>
    rw [step_eq_takeMessage hfault hq]
    exact takeMessage_next_or_allowedStop (s := { s with cmdIn := rest }) hpaired m

end Sys2Proof.Machine
end

/-! SUPPORT. Waiting, turns and keys in use (70_reset_and_hazards.md R233, R237, R238): a step and CMD_IN, a run from a good state,
and DECRYPT.WORK after an installing DECRYPT.MASTER; and the statements of the family of 70_reset_and_hazards.md. -/
section

namespace Sys2Proof.Machine

open Sys2Proof.Said

/-! ## Waiting (70_reset_and_hazards.md R238) -/

/-- Settles O10. -/
theorem emptyChannelLeavesTheStateAsItIs : Obligations.EmptyChannelLeavesTheStateAsItIs :=
  fun _ hf hq => step_of_empty hf hq

/-! ## Messages in their turn (20_memory.md R58, 70_reset_and_hazards.md R238) -/

/-- What a step leaves of CMD_IN; a wait leaves the empty CMD_IN empty. -/
theorem step_next_cmdIn {s t : State} (h : step s = .next t) : t.cmdIn = s.cmdIn.tail := by
  obtain ⟨-, ⟨hq, rfl⟩ | ⟨m, rest, b, rs, hq, -, rfl⟩⟩ := step_next_cases h
  · rw [hq, List.tail_nil]
  · rw [hq, List.tail_cons, emitAll_cmdIn]

/-- An allowed stop ends the run. -/
theorem runSteps_succ_of_allowedStop {s : State} (n : Nat) (h : AllowedStop (step s)) :
    runSteps (n + 1) s = step s := by
  rw [runSteps]
  cases hstep : step s with
  | next t =>
    rw [hstep] at h
    cases h
  | fault | refused => rfl

/-- A run from a good state stays good and takes one message a step from the front, unless it has stopped as the spec allows. -/
theorem runSteps_drop_or_allowedStop {s : State} (hs : StateInv s) (k : Nat) :
    (∃ t, runSteps k s = .next t ∧ StateInv t ∧ t.cmdIn = s.cmdIn.drop k) ∨ AllowedStop (runSteps k s) := by
  induction k generalizing s with
  | zero => exact .inl ⟨s, rfl, hs, rfl⟩
  | succ k ih =>
    obtain ⟨s', hstep⟩ | hstop := goodStatesStopOnlyAsTheSpecAllows s hs
    · rw [runSteps_succ_next k hstep, ← List.drop_tail, ← step_next_cmdIn hstep]
      exact ih (everyStepKeepsTheInvariant s s' hs hstep)
    · rw [runSteps_succ_of_allowedStop k hstop]
      exact .inr hstop

/-- Settles O51: after k steps the front of CMD_IN is message k, and FAULT is clear. -/
theorem everyMessageIsTakenInItsTurn : Obligations.EveryMessageIsTakenInItsTurn := by
  intro s k hs _
  obtain ⟨t, hrun, ht, hq⟩ | hstop := runSteps_drop_or_allowedStop hs k
  · refine .inl ⟨t, hrun, hq, fun m hm => step_eq_takeMessage ht.notFaulted ?_⟩
    obtain ⟨hk, rfl⟩ := List.getElem?_eq_some_iff.1 hm
    rw [hq, List.drop_eq_getElem_cons hk]
  · exact .inr hstop

/-! ## An installed key in use (70_reset_and_hazards.md R233, R237) -/

/-- A direction comes with its DIR bit. -/
theorem dirTest_of_dir {b : Block} {a : Addr} {src dst : Mac} {dir : Dir} (h : (dirTest b a src dst).1 = some dir) :
    dirTest b a src dst = (some dir, stDir dir) := by
  obtain e | ⟨d, e⟩ := dirTest_cases b a src dst
  · rw [e] at h
    cases h
  · rw [e] at h
    cases h
    exact e

/-- A DECRYPT.MASTER that completes past its counter check was not refused its tail. -/
theorem tailTaken_of_decryptMaster_next {a : Addr} {seq : Byte} {src dst : Mac} {ct : List Byte} {s t : State}
    {ctr : Counter} (hctr : readMctr s.block a = some ctr) (h : exec (.decryptMaster a seq src dst ct) s = .next t) :
    TailTaken Config.cfg.tailMode ct.length := by
  apply tailRefused_eq_false.1
  cases htail : tailRefused Config.cfg.tailMode ct.length with
  | false => rfl
  | true =>
    rw [exec_eq_commit, ruleOf, decryptMasterRule_of_refused hctr htail] at h
    cases h

/-- After an installing DECRYPT.MASTER the direction has a work key and a work counter, and the registry is as it was. -/
theorem decryptMaster_next_installed {a : Addr} {seq : Byte} {src dst : Mac} {ct : List Byte} {s t : State} {dir : Dir}
    (hctr : readMctr s.block a ≠ none) (hdir : (dirTest s.block a src dst).1 = some dir) (hlen : 20 ≤ ct.length)
    (h : exec (.decryptMaster a seq src dst ct) s = .next t) :
    ∃ key ctr, readWkey t.block a dir = some key ∧ readWctr t.block a dir = some ctr ∧ t.block.reg = s.block.reg := by
  obtain ⟨mctr, hmctr⟩ := Option.ne_none_iff_exists'.1 hctr
  obtain ⟨t', ht', -, -, -, hinstalled, -, -, -, hreg⟩ := masterPathDecryptsStoresTheCounterAndInstallsTheKey a seq src dst ct s
    mctr hmctr (tailTaken_of_decryptMaster_next hmctr h) _ _ _ rfl rfl rfl
  cases ht'.symm.trans h
  obtain ⟨hkey, hwctr⟩ := hinstalled dir hdir (by rwa [chain_length])
  obtain ⟨key, hkey, -⟩ := Option.map_eq_some_iff.1 hkey
  obtain ⟨ctr, hwctr, -⟩ := Option.map_eq_some_iff.1 hwctr
  exact ⟨key, ctr, hkey, hwctr, hreg⟩

/-- Settles O43: the registry is unchanged, so the next frame has the same direction, and that direction has its key and counter. -/
theorem installedKeyServesTheNextWorkFrame : Obligations.InstalledKeyServesTheNextWorkFrame := by
  intro a seq seq' src dst ct ct' s t dir hctr hdir hlen h htail
  obtain ⟨key, ctr, hkey, hwctr, hreg⟩ := decryptMaster_next_installed hctr hdir hlen h
  have hsame : dirTest t.block a src dst = dirTest s.block a src dst := dirTest_congr src dst (by rw [readReg, hreg, readReg])
  obtain ⟨u, hexec, hu, -⟩ := workPathDecryptsAndAdvancesTheCounter a seq' src dst ct' t dir (stDir dir) key ctr
    (hsame.trans (dirTest_of_dir hdir)) hkey hwctr htail _ rfl
  exact ⟨key, ctr, u, hkey, hwctr, hexec, hu⟩

end Sys2Proof.Machine
end
